-- ==== Sys2Proof/Word.lean ====
section
/-! DEFINITION. The word types of the LC-3 CORE: 16-bit Words (R6, R8), 8-bit output bytes (R28) and the
3-bit condition register's type (R24). -/

namespace Sys2Proof

/-- "a 16-bit unit of storage/addressing, the architecture's native integer size" (R6, R17). `+` on it wraps
modulo 65536 and never signals (R8). -/
abbrev Word := BitVec 16

/-- One byte of the output trace or of an image stream (R28, R201). -/
abbrev Byte := BitVec 8

/-- The 3-bit condition register (`COND_WIDTH` of R6); its three legal values are in Machine/Flags.lean. -/
abbrev Cond := BitVec 3

end Sys2Proof
end

