-- ==== Sys2Proof/Config.lean ====
section
/-! DEFINITION. What is fixed for one machine (the parameters of R6 that have a default) and the free values
(the OPEN parameters of R6, which no proof can evaluate). -/

namespace Sys2Proof

/-- `UNKNOWN_TRAP_POLICY` of R6: what a TRAP with an undefined vector does (R153). -/
inductive TrapPolicy where
  | fault
  | nop
deriving DecidableEq, Repr

/-- `JSRR_LINK_ORDER` of R6: whether JSRR writes R7 before or after it reads BaseR (R113). -/
inductive LinkOrder where
  | linkFirst
  | readFirst
deriving DecidableEq, Repr

/-- The parameters of R6 that have a default. A state carries them so that every statement about every state
holds for every value; no step writes them (notes/assumptions/7.md). -/
structure Params where
  kbsrAddr : Word
  kbdrAddr : Word
  unknownTrapPolicy : TrapPolicy
  jsrrLinkOrder : LinkOrder
deriving DecidableEq, Repr

/-- The defaults of R6's table. -/
def Params.default : Params where
  kbsrAddr := 0xFE00
  kbdrAddr := 0xFE02
  unknownTrapPolicy := .fault
  jsrrLinkOrder := .linkFirst

/-- `PC_START` of R6: where execution begins (R32, R206). -/
def Config.pcStart : Word := 0x3000

/-- `INPUT` of R6, OPEN: what the input device answers to its n-th consultation beyond the answers the host has
already placed in `State.input`. `none` is "not ready" to a poll and "nothing delivered yet" to a wait. A FREE
VALUE: no body, so every claim holds for every device (notes/assumptions/3.md). -/
opaque Config.freeInput : Nat → Option Word

/-- `IN_PROMPT` of R6, OPEN: the bytes IN writes before it waits (R148). A free value (notes/assumptions/8.md). -/
opaque Config.inPrompt : List Byte

/-- `HALT_NOTICE` of R6, OPEN: the bytes HALT writes (R152). A free value (notes/assumptions/8.md). -/
opaque Config.haltNotice : List Byte

/-- The exit outcomes of R196. -/
inductive ExitOutcome where
  | normal
  | abnormal
  | hostSignal
deriving DecidableEq, Repr

/-- `EXIT_STATUS` of R6, OPEN: the numeric process exit status for each outcome. A free value
(notes/assumptions/8.md). -/
opaque Config.exitStatus : ExitOutcome → Int

end Sys2Proof
end

