-- ==== Sys2Proof/Syntax.lean ====
section
/-! DEFINITION. The instructions: one constructor per row of spec/opcode_table.json (R66, R81, R142). -/

namespace Sys2Proof

/-- The eight general registers a 3-bit field can name; every value is valid (R20, R69). -/
inductive Reg where
  | r0 | r1 | r2 | r3 | r4 | r5 | r6 | r7
deriving DecidableEq, Repr

/-- An instruction, with its operand fields as R65 names them. An argument named `x…` holds bits the decoder
ignores (R70): they never change what the instruction does, and are kept because a fatal fault records the
whole instruction word (R182). RET and the six trap routines have rows of their own in the table, so `jmp` is
for a base other than R7 and `trap` for an undefined vector (Sys2Proof/WellFormed.lean). -/
inductive Instr where
  /-- R101. -/
  | addReg (dr sr1 : Reg) (x43 : BitVec 2) (sr2 : Reg)
  /-- R102. -/
  | addImm (dr sr1 : Reg) (imm5 : BitVec 5)
  /-- R103. -/
  | andReg (dr sr1 : Reg) (x43 : BitVec 2) (sr2 : Reg)
  /-- R104. -/
  | andImm (dr sr1 : Reg) (imm5 : BitVec 5)
  /-- R105. -/
  | notReg (dr sr : Reg) (x50 : BitVec 6)
  /-- R110; `nzp` is `ir[11:9]`. -/
  | br (nzp : BitVec 3) (pcOffset9 : BitVec 9)
  /-- R111, JMP R7. -/
  | ret (x119 : BitVec 3) (x50 : BitVec 6)
  /-- R111. -/
  | jmp (x119 : BitVec 3) (baseR : Reg) (x50 : BitVec 6)
  /-- R112. -/
  | jsr (pcOffset11 : BitVec 11)
  /-- R113. -/
  | jsrr (x109 : BitVec 2) (baseR : Reg) (x50 : BitVec 6)
  /-- R122. -/
  | ld (dr : Reg) (pcOffset9 : BitVec 9)
  /-- R123. -/
  | ldi (dr : Reg) (pcOffset9 : BitVec 9)
  /-- R124. -/
  | ldr (dr baseR : Reg) (offset6 : BitVec 6)
  /-- R125. -/
  | lea (dr : Reg) (pcOffset9 : BitVec 9)
  /-- R126. -/
  | st (sr : Reg) (pcOffset9 : BitVec 9)
  /-- R127. -/
  | sti (sr : Reg) (pcOffset9 : BitVec 9)
  /-- R128. -/
  | str (sr baseR : Reg) (offset6 : BitVec 6)
  /-- R143, TRAP x20. -/
  | getc (x118 : BitVec 4)
  /-- R145, TRAP x21. -/
  | out (x118 : BitVec 4)
  /-- R146, TRAP x22. -/
  | puts (x118 : BitVec 4)
  /-- R148, TRAP x23: the routine IN. -/
  | inEcho (x118 : BitVec 4)
  /-- R150, TRAP x24. -/
  | putsp (x118 : BitVec 4)
  /-- R152, TRAP x25. -/
  | halt (x118 : BitVec 4)
  /-- R140. -/
  | trap (x118 : BitVec 4) (trapvect8 : BitVec 8)
  /-- R171. -/
  | rti (x110 : BitVec 12)
  /-- R170. -/
  | res (x110 : BitVec 12)
deriving DecidableEq, Repr

end Sys2Proof
end

