-- ==== Sys2Proof/WellFormed.lean ====
section
/-! DEFINITION. Which terms of `Instr` are the reading of some word. Every operand field is already bounded by its
type; what is left to check is that a word with a row of its own in the table is written with that row. -/

namespace Sys2Proof

/-- The vectors of R142 (GETC, OUT, PUTS, IN, PUTSP, HALT). -/
def definedVector (v : BitVec 8) : Bool :=
  0x20 ≤ v && v ≤ 0x25

/-- `jmp` with R7 is RET's row (R111) and `trap` with a defined vector is that routine's row (R142); every other
term is the reading of a word (R76, R78). -/
def Instr.wellFormed : Instr → Bool
  | .jmp _ baseR _ => baseR != .r7
  | .trap _ v => !definedVector v
  | .addReg .. | .addImm .. | .andReg .. | .andImm .. | .notReg .. | .br .. | .ret .. | .jsr .. | .jsrr ..
  | .ld .. | .ldi .. | .ldr .. | .lea .. | .st .. | .sti .. | .str .. | .getc .. | .out .. | .puts ..
  | .inEcho .. | .putsp .. | .halt .. | .rti .. | .res .. => true

end Sys2Proof
end

