-- ==== Sys2Proof/Decode.lean ====
section
/-! DEFINITION. The instruction_decoder (R63 to R70, R76): a total function from the 65536 Words, and the encoder
written from the patterns of R66. No Word is refused: "There is no "invalid" outcome at decode" (R76). -/

namespace Sys2Proof

/-- The closed opcode enumeration of R64, in numeric order. -/
inductive Opcode where
  | br | add | ld | st | jsr | and | ldr | str | rti | not | ldi | sti | jmp | res | lea | trap
deriving DecidableEq, Repr

/-- The opcode `ir[15:12]` numbers (R64). -/
def Opcode.ofBits (b : BitVec 4) : Opcode :=
  match b.toNat with
  | 0 => .br | 1 => .add | 2 => .ld | 3 => .st | 4 => .jsr | 5 => .and | 6 => .ldr | 7 => .str
  | 8 => .rti | 9 => .not | 10 => .ldi | 11 => .sti | 12 => .jmp | 13 => .res | 14 => .lea | _ => .trap

/-- The number R64 gives an opcode. -/
def Opcode.bits : Opcode → BitVec 4
  | .br => 0x0 | .add => 0x1 | .ld => 0x2 | .st => 0x3 | .jsr => 0x4 | .and => 0x5 | .ldr => 0x6 | .str => 0x7
  | .rti => 0x8 | .not => 0x9 | .ldi => 0xA | .sti => 0xB | .jmp => 0xC | .res => 0xD | .lea => 0xE | .trap => 0xF

/-- The register a 3-bit field names (R69). -/
def Reg.ofBits (b : BitVec 3) : Reg :=
  match b.toNat with
  | 0 => .r0 | 1 => .r1 | 2 => .r2 | 3 => .r3 | 4 => .r4 | 5 => .r5 | 6 => .r6 | _ => .r7

/-- The 3-bit field that names a register. -/
def Reg.bits : Reg → BitVec 3
  | .r0 => 0 | .r1 => 1 | .r2 => 2 | .r3 => 3 | .r4 => 4 | .r5 => 5 | .r6 => 6 | .r7 => 7

/-- `ir[lo+len-1 : lo]` (R7). -/
def field (ir : Word) (lo len : Nat) : BitVec len :=
  ir.extractLsb' lo len

/-- The register that `ir[lo+2 : lo]` names. -/
def regField (ir : Word) (lo : Nat) : Reg :=
  Reg.ofBits (field ir lo 3)

/-- A TRAP word by its vector `ir[7:0]` (R142); the six routines have table rows of their own. -/
def decodeTrap (x118 : BitVec 4) (v : BitVec 8) : Instr :=
  if v = 0x20 then .getc x118
  else if v = 0x21 then .out x118
  else if v = 0x22 then .puts x118
  else if v = 0x23 then .inEcho x118
  else if v = 0x24 then .putsp x118
  else if v = 0x25 then .halt x118
  else .trap x118 v

/-- The instruction of a word with the given opcode: R76's class and the fields of R65. -/
def decodeAs (op : Opcode) (ir : Word) : Instr :=
  match op with
  | .br => .br (field ir 9 3) (field ir 0 9)
  | .add =>
    if field ir 5 1 = 1 then .addImm (regField ir 9) (regField ir 6) (field ir 0 5)
    else .addReg (regField ir 9) (regField ir 6) (field ir 3 2) (regField ir 0)
  | .ld => .ld (regField ir 9) (field ir 0 9)
  | .st => .st (regField ir 9) (field ir 0 9)
  | .jsr =>
    if field ir 11 1 = 1 then .jsr (field ir 0 11)
    else .jsrr (field ir 9 2) (regField ir 6) (field ir 0 6)
  | .and =>
    if field ir 5 1 = 1 then .andImm (regField ir 9) (regField ir 6) (field ir 0 5)
    else .andReg (regField ir 9) (regField ir 6) (field ir 3 2) (regField ir 0)
  | .ldr => .ldr (regField ir 9) (regField ir 6) (field ir 0 6)
  | .str => .str (regField ir 9) (regField ir 6) (field ir 0 6)
  | .rti => .rti (field ir 0 12)
  | .not => .notReg (regField ir 9) (regField ir 6) (field ir 0 6)
  | .ldi => .ldi (regField ir 9) (field ir 0 9)
  | .sti => .sti (regField ir 9) (field ir 0 9)
  | .jmp =>
    if regField ir 6 = .r7 then .ret (field ir 9 3) (field ir 0 6)
    else .jmp (field ir 9 3) (regField ir 6) (field ir 0 6)
  | .res => .res (field ir 0 12)
  | .lea => .lea (regField ir 9) (field ir 0 9)
  | .trap => decodeTrap (field ir 8 4) (field ir 0 8)

/-- `Decode(ir)` of R76. -/
def decode (ir : Word) : Instr :=
  decodeAs (Opcode.ofBits (field ir 12 4)) ir

/-! The encoder: one helper per layout of R66's patterns, bit 15 first. -/

/-- `oooo` then 12 bits: RTI, RES. -/
def word12 (op : Opcode) (low : BitVec 12) : Word :=
  op.bits ++ low

/-- `oooo aaa bbbbbbbbb`: BR, LD, LDI, LEA, ST, STI. -/
def word39 (op : Opcode) (a : BitVec 3) (b : BitVec 9) : Word :=
  op.bits ++ a ++ b

/-- `oooo aaa bbb cccccc`: NOT, JMP, LDR, STR. -/
def word336 (op : Opcode) (a b : BitVec 3) (c : BitVec 6) : Word :=
  op.bits ++ a ++ b ++ c

/-- `oooo DDD SSS 0 xx TTT`: ADD and AND, register form. -/
def wordRegister (op : Opcode) (dr sr1 : Reg) (x43 : BitVec 2) (sr2 : Reg) : Word :=
  op.bits ++ dr.bits ++ sr1.bits ++ 0#1 ++ x43 ++ sr2.bits

/-- `oooo DDD SSS 1 iiiii`: ADD and AND, immediate form. -/
def wordImmediate (op : Opcode) (dr sr1 : Reg) (imm5 : BitVec 5) : Word :=
  op.bits ++ dr.bits ++ sr1.bits ++ 1#1 ++ imm5

/-- `0100 1 ooooooooooo`: JSR. -/
def wordJsr (off : BitVec 11) : Word :=
  Opcode.jsr.bits ++ 1#1 ++ off

/-- `0100 0 xx BBB xxxxxx`: JSRR. -/
def wordJsrr (x109 : BitVec 2) (baseR : Reg) (x50 : BitVec 6) : Word :=
  Opcode.jsr.bits ++ 0#1 ++ x109 ++ baseR.bits ++ x50

/-- `1111 xxxx vvvvvvvv`: TRAP. -/
def wordTrap (x118 : BitVec 4) (v : BitVec 8) : Word :=
  Opcode.trap.bits ++ x118 ++ v

/-- The word of an instruction (R66, R81, R142). -/
def encode : Instr → Word
  | .addReg dr sr1 x43 sr2 => wordRegister .add dr sr1 x43 sr2
  | .addImm dr sr1 imm5 => wordImmediate .add dr sr1 imm5
  | .andReg dr sr1 x43 sr2 => wordRegister .and dr sr1 x43 sr2
  | .andImm dr sr1 imm5 => wordImmediate .and dr sr1 imm5
  | .notReg dr sr x50 => word336 .not dr.bits sr.bits x50
  | .br nzp off => word39 .br nzp off
  | .ret x119 x50 => word336 .jmp x119 Reg.r7.bits x50
  | .jmp x119 baseR x50 => word336 .jmp x119 baseR.bits x50
  | .jsr off => wordJsr off
  | .jsrr x109 baseR x50 => wordJsrr x109 baseR x50
  | .ld dr off => word39 .ld dr.bits off
  | .ldi dr off => word39 .ldi dr.bits off
  | .ldr dr baseR off => word336 .ldr dr.bits baseR.bits off
  | .lea dr off => word39 .lea dr.bits off
  | .st sr off => word39 .st sr.bits off
  | .sti sr off => word39 .sti sr.bits off
  | .str sr baseR off => word336 .str sr.bits baseR.bits off
  | .getc x118 => wordTrap x118 0x20
  | .out x118 => wordTrap x118 0x21
  | .puts x118 => wordTrap x118 0x22
  | .inEcho x118 => wordTrap x118 0x23
  | .putsp x118 => wordTrap x118 0x24
  | .halt x118 => wordTrap x118 0x25
  | .trap x118 v => wordTrap x118 v
  | .rti x110 => word12 .rti x110
  | .res x110 => word12 .res x110

/-- The instruction with its ignored bits (R70) at zero. -/
def Instr.clearIgnored : Instr → Instr
  | .addReg dr sr1 _ sr2 => .addReg dr sr1 0 sr2
  | .addImm dr sr1 imm5 => .addImm dr sr1 imm5
  | .andReg dr sr1 _ sr2 => .andReg dr sr1 0 sr2
  | .andImm dr sr1 imm5 => .andImm dr sr1 imm5
  | .notReg dr sr _ => .notReg dr sr 0
  | .br nzp off => .br nzp off
  | .ret _ _ => .ret 0 0
  | .jmp _ baseR _ => .jmp 0 baseR 0
  | .jsr off => .jsr off
  | .jsrr _ baseR _ => .jsrr 0 baseR 0
  | .ld dr off => .ld dr off
  | .ldi dr off => .ldi dr off
  | .ldr dr baseR off => .ldr dr baseR off
  | .lea dr off => .lea dr off
  | .st sr off => .st sr off
  | .sti sr off => .sti sr off
  | .str sr baseR off => .str sr baseR off
  | .getc _ => .getc 0
  | .out _ => .out 0
  | .puts _ => .puts 0
  | .inEcho _ => .inEcho 0
  | .putsp _ => .putsp 0
  | .halt _ => .halt 0
  | .trap _ v => .trap 0 v
  | .rti _ => .rti 0
  | .res _ => .res 0

/-! The rows of R66, for the statements about what the decoder reads. -/

/-- The classes of R76's decoded record. -/
inductive InstrClass where
  | addReg | addImm | andReg | andImm | not | br | jmp | jsr | jsrr | ld | ldi | ldr | lea | st | sti | str
  | trap | rti | res
deriving DecidableEq, Repr

/-- R66's "mask" column. -/
def InstrClass.mask : InstrClass → Word
  | .addReg | .addImm | .andReg | .andImm => 0xF020
  | .jsr | .jsrr => 0xF800
  | .not | .br | .jmp | .ld | .ldi | .ldr | .lea | .st | .sti | .str | .trap | .rti | .res => 0xF000

/-- R66's "match" column. -/
def InstrClass.matchWord : InstrClass → Word
  | .addReg => 0x1000 | .addImm => 0x1020 | .andReg => 0x5000 | .andImm => 0x5020 | .not => 0x9000
  | .br => 0x0000 | .jmp => 0xC000 | .jsr => 0x4800 | .jsrr => 0x4000 | .ld => 0x2000 | .ldi => 0xA000
  | .ldr => 0x6000 | .lea => 0xE000 | .st => 0x3000 | .sti => 0xB000 | .str => 0x7000 | .trap => 0xF000
  | .rti => 0x8000 | .res => 0xD000

/-- The bits R70 says the decoder ignores. -/
def InstrClass.ignoredBits : InstrClass → Word
  | .addReg | .andReg => 0x0018
  | .not => 0x003F
  | .jmp => 0x0E3F
  | .jsrr => 0x063F
  | .trap => 0x0F00
  | .rti | .res => 0x0FFF
  | .addImm | .andImm | .br | .jsr | .ld | .ldi | .ldr | .lea | .st | .sti | .str => 0x0000

/-- The class of R76 an instruction belongs to (RET is JMP's class, the six routines are TRAP's). -/
def Instr.instrClass : Instr → InstrClass
  | .addReg .. => .addReg | .addImm .. => .addImm | .andReg .. => .andReg | .andImm .. => .andImm
  | .notReg .. => .not | .br .. => .br | .ret .. | .jmp .. => .jmp | .jsr .. => .jsr | .jsrr .. => .jsrr
  | .ld .. => .ld | .ldi .. => .ldi | .ldr .. => .ldr | .lea .. => .lea | .st .. => .st | .sti .. => .sti
  | .str .. => .str | .rti .. => .rti | .res .. => .res
  | .getc .. | .out .. | .puts .. | .inEcho .. | .putsp .. | .halt .. | .trap .. => .trap

/-- The decoder on a table word: every instruction is one 16-bit Word (R63), so bits above 15 do not exist. -/
def decodeTableWord (nbits w : Nat) : Option Instr :=
  some (decode (BitVec.ofNat 16 (w % 2 ^ nbits)))

end Sys2Proof
end

