-- ==== Sys2Proof/Machine/State.lean ====
section
/-! DEFINITION. The state of the CORE (10_state.md) as plain data, with the state at reset (R32), the two reason
types, and nothing else. Every field is either named by a rule of the spec or is the model's own, marked so. -/

namespace Sys2Proof.Machine

/-- R0 to R7, 16 bits each, none hardwired (R20). -/
structure RegFile where
  r0 : Word
  r1 : Word
  r2 : Word
  r3 : Word
  r4 : Word
  r5 : Word
  r6 : Word
  r7 : Word
deriving DecidableEq, Repr

/-- What a TRAP is waiting for a character for (R27). -/
inductive InputKind where
  | getc
  | inEcho
deriving DecidableEq, Repr

/-- Which string routine is writing (R27). -/
inductive StringKind where
  | puts
  | putsp
deriving DecidableEq, Repr

/-- The three fault codes of R181. -/
inductive FaultCode where
  | reservedOpcode
  | rtiUnimplemented
  | unknownTrap
deriving DecidableEq, Repr

/-- The executor run state `state` (R27). -/
inductive RunState where
  /-- The next step fetches and executes one instruction. -/
  | running
  /-- WAIT_INPUT(kind). -/
  | waitInput (kind : InputKind)
  /-- STRING_OUT(kind, addr). -/
  | stringOut (kind : StringKind) (addr : Word)
  /-- Terminal, "entered only by the halt trap". -/
  | halted
  /-- FAULTED(code, word, addr): terminal (R182). -/
  | faulted (code : FaultCode) (word addr : Word)
  /-- Terminal: host abort (R186). -/
  | aborted
deriving DecidableEq, Repr

/-- Why the CORE has no further step. These are stops of a run, never of an instruction: every instruction that
is executed answers a next state. All are safe: the spec says no step exists there. -/
inductive Fault where
  /-- Raised by `step` in HALTED: "HALTED is terminal: no further step exists" (R152). Safe. -/
  | halted
  /-- Raised by `step` in FAULTED: "FAULTED is terminal: no step follows" (R182). Safe. -/
  | faulted (code : FaultCode)
  /-- Raised by `step` in ABORTED: "ABORTED is terminal" (R186). Safe. -/
  | aborted
  /-- Raised by `step` in WAIT_INPUT when the input device delivers no character: "While no character is
  available there is no step" (R144). Safe: the host can still supply one and step again. -/
  | waitingForInput
deriving DecidableEq, Repr

/-- Why an instruction has no meaning in the model. -/
inductive Refusal where
  /-- An arm of `exec` that is not modelled yet; no arm raises it. Safe. -/
  | notModelled (mnemonic : String)
deriving DecidableEq, Repr

/-- The word array of R40, as the list of its (address, word) pairs that differ from what an unlisted address reads
as, addresses strictly rising. The unit is the Word, since "there are no byte addresses" (R40;
notes/assumptions/1.md). -/
abbrev Memory := List (Nat × Word)

/-- The state of one CORE. -/
structure State where
  /-- R0 to R7 (R20). -/
  regs : RegFile
  /-- The program counter (R23). -/
  pc : Word
  /-- The condition register (R24). -/
  cond : Cond
  /-- The executor run state (R27). -/
  runState : RunState
  /-- M[0..65535] (R40), the keyboard words among them (R29). -/
  mem : Memory
  /-- The output trace, oldest byte first (R28). -/
  output : List Byte
  /-- The model's own: the answers the input device will give next, soonest first, `none` for "not ready"
  (R15, R29; notes/assumptions/2.md). -/
  input : List (Option Word)
  /-- The model's own: how often the device was consulted beyond `input`; it selects the free value
  `Config.freeInput` (notes/assumptions/3.md). -/
  inputDraws : Nat
  /-- The model's own: after how many more steps the host aborts the run, `none` for never (R186;
  notes/assumptions/6.md). -/
  abortIn : Option Nat
  /-- The model's own carrier of the parameters of R6; no step writes it (notes/assumptions/7.md). -/
  params : Params
deriving DecidableEq, Repr

/-- The state at process start, before an image is loaded (R32). -/
def State.reset : State where
  regs := ⟨0, 0, 0, 0, 0, 0, 0, 0⟩
  pc := Config.pcStart
  cond := 0b010
  runState := .running
  mem := []
  output := []
  input := []
  inputDraws := 0
  abortIn := none
  params := Params.default

end Sys2Proof.Machine
end

