-- ==== Sys2Proof/Machine/Ops.lean ====
section
/-! DEFINITION. The named operations every meaning is built from: registers, the word array, the input device and the
keyboard poll, the output sink, the fetch, raising a fatal fault, and the host's abort. -/

namespace Sys2Proof.Machine

/-! ## Registers (R20) -/

/-- `R[r]`. -/
def RegFile.get (f : RegFile) : Reg → Word
  | .r0 => f.r0 | .r1 => f.r1 | .r2 => f.r2 | .r3 => f.r3
  | .r4 => f.r4 | .r5 => f.r5 | .r6 => f.r6 | .r7 => f.r7

/-- `R[r] <- v`. -/
def RegFile.set (f : RegFile) (r : Reg) (v : Word) : RegFile :=
  match r with
  | .r0 => { f with r0 := v } | .r1 => { f with r1 := v } | .r2 => { f with r2 := v } | .r3 => { f with r3 := v }
  | .r4 => { f with r4 := v } | .r5 => { f with r5 := v } | .r6 => { f with r6 := v } | .r7 => { f with r7 := v }

/-- `R[r]` (R10). -/
def State.reg (s : State) (r : Reg) : Word :=
  s.regs.get r

/-- `R[r] <- v` (R10). -/
def State.setReg (s : State) (r : Reg) (v : Word) : State :=
  { s with regs := s.regs.set r v }

/-- `PC <- v` (R10). -/
def State.setPc (s : State) (v : Word) : State :=
  { s with pc := v }

/-- `COND <- c`. -/
def State.setCond (s : State) (c : Cond) : State :=
  { s with cond := c }

/-- `state <- r` (R27). -/
def State.setRunState (s : State) (r : RunState) : State :=
  { s with runState := r }

/-! ## The word array (R40 to R47) -/

/-- What an address that is not listed reads as: memory is zero at reset (R32). -/
def Memory.unlisted : Word := 0

/-- The word at address `a` of a memory list. -/
def Memory.lookup (a : Nat) : Memory → Word
  | [] => Memory.unlisted
  | (b, w) :: rest => if a = b then w else Memory.lookup a rest

/-- The memory without an entry for `a`. -/
def Memory.erase (a : Nat) : Memory → Memory
  | [] => []
  | (b, w) :: rest => if a = b then Memory.erase a rest else (b, w) :: Memory.erase a rest

/-- An entry placed before the first larger address. -/
def Memory.insert (a : Nat) (v : Word) : Memory → Memory
  | [] => [(a, v)]
  | (b, w) :: rest => if a < b then (a, v) :: (b, w) :: rest else (b, w) :: Memory.insert a v rest

/-- The memory with `v` at address `a`, in canonical form again. -/
def Memory.update (a : Nat) (v : Word) (m : Memory) : Memory :=
  if v = Memory.unlisted then Memory.erase a m else Memory.insert a v (Memory.erase a m)

/-- `M[a]`. -/
def Memory.read (m : Memory) (a : Word) : Word :=
  Memory.lookup a.toNat m

/-- `M[a] <- v`. -/
def Memory.write (m : Memory) (a v : Word) : Memory :=
  Memory.update a.toNat v m

/-- Every listed address is at least `lo`, exists, and rises; no listed word is what an unlisted one reads as. -/
def Memory.wfFrom (lo : Nat) : Memory → Bool
  | [] => true
  | (b, w) :: rest => decide (lo ≤ b) && decide (b < 65536) && (w != Memory.unlisted) && Memory.wfFrom (b + 1) rest

/-- The canonical form of a memory. -/
def Memory.wf (m : Memory) : Bool :=
  Memory.wfFrom 0 m

/-- `MemReadRaw(a)`: the stored word, no side effect (R47). -/
def State.memReadRaw (s : State) (a : Word) : Word :=
  s.mem.read a

/-- `MemWrite(a, v)`: verbatim at every address, the keyboard's too; it never faults (R42, R43). -/
def State.memWrite (s : State) (a v : Word) : State :=
  { s with mem := s.mem.write a v }

/-! ## The input device (R12, R15, R155) -/

/-- `Poll()` and, when it answers ready, the `Input()` that follows without blocking (R12, R46). -/
def State.pollDevice (s : State) : Option Word × State :=
  match s.input with
  | answer :: later => (answer, { s with input := later })
  | [] => (Config.freeInput s.inputDraws, { s with inputDraws := s.inputDraws + 1 })

/-- The first character among the device's coming answers, and the answers after it. -/
def firstCharacter : List (Option Word) → Option (Word × List (Option Word))
  | [] => none
  | none :: later => firstCharacter later
  | some c :: later => some (c, later)

/-- The blocking `Input()` of GETC and IN: the next character the device delivers, or `none` while it delivers
none (R144, R155; notes/assumptions/4.md). -/
def State.awaitDevice (s : State) : Option (Word × State) :=
  match firstCharacter s.input with
  | some (c, later) => some (c, { s with input := later })
  | none =>
    match Config.freeInput s.inputDraws with
    | some c => some (c, { s with input := [], inputDraws := s.inputDraws + 1 })
    | none => none

/-- The host supplies a character (R195). -/
def State.supplyCharacter (s : State) (c : Word) : State :=
  { s with input := s.input ++ [some c] }

/-! ## The polling read (R44 to R46) -/

/-- `KeyboardPoll()` (R46). -/
def State.keyboardPoll (s : State) : State :=
  match s.pollDevice with
  | (some c, s1) => (s1.memWrite s.params.kbsrAddr 0x8000).memWrite s.params.kbdrAddr c
  | (none, s1) => s1.memWrite s.params.kbsrAddr 0x0000

/-- The state a read of `a` leaves: only the keyboard status address polls (R44, R45). -/
def State.afterRead (s : State) (a : Word) : State :=
  if a = s.params.kbsrAddr then s.keyboardPoll else s

/-- `MemRead(a)`: the word, and the state the read leaves (R45). -/
def State.memRead (s : State) (a : Word) : Word × State :=
  ((s.afterRead a).memReadRaw a, s.afterRead a)

/-! ## The output sink (R154) -/

/-- `OutputString(bs)`: the bytes appended in order (R12, R28). -/
def State.emit (s : State) (bs : List Byte) : State :=
  { s with output := s.output ++ bs }

/-! ## Fetch (R60 to R62) -/

/-- The fetch_unit: the instruction word, by the polling read, and the state with PC at PC† (R60, R61). -/
def fetch (s : State) : Word × State :=
  let (ir, s1) := s.memRead s.pc
  (ir, s1.setPc (s.pc + 1))

/-! ## Fatal faults (R181, R182) and the return from a trap routine (R188) -/

/-- The code's number (R181). -/
def FaultCode.number : FaultCode → Nat
  | .reservedOpcode => 1
  | .rtiUnimplemented => 2
  | .unknownTrap => 3

/-- `raise Fault(code)`: FAULTED with the instruction word and its address PC† - 1; nothing else changes (R182). -/
def raiseFault (code : FaultCode) (ir : Word) (s : State) : State :=
  s.setRunState (.faulted code ir (s.pc - 1))

/-- A routine's end: "the state goes back to RUNNING with PC = PC†" (R188). A fault has no return (R180). -/
def trapReturn (s : State) : State :=
  s.setRunState .running

/-! ## The host (R186, R195, R196) -/

/-- HALTED, FAULTED and ABORTED: the run has ended (R208). -/
def RunState.terminal : RunState → Bool
  | .halted | .faulted .. | .aborted => true
  | .running | .waitInput _ | .stringOut .. => false

/-- The host ends the run between two steps; a terminal state stays (R184, R186). -/
def hostAbort (s : State) : State :=
  if s.runState.terminal then s else s.setRunState .aborted

/-- Whether the host aborts before the next step. -/
def State.abortDue (s : State) : Bool :=
  s.abortIn == some 0

/-- One step of the host's schedule goes by. -/
def State.tick (s : State) : State :=
  { s with abortIn := s.abortIn.map (· - 1) }

/-- The outcome the host sees of a run state, `none` while the run goes on (R196, R208). -/
def RunState.exitOutcome : RunState → Option ExitOutcome
  | .halted => some .normal
  | .faulted .. => some .abnormal
  | .aborted => some .hostSignal
  | .running | .waitInput _ | .stringOut .. => none

/-- The process exit status the host sees, once the run has ended (R196, `EXIT_STATUS` of R6). -/
def RunState.exitStatus (r : RunState) : Option Int :=
  r.exitOutcome.map Config.exitStatus

end Sys2Proof.Machine
end

