-- ==== Sys2Proof/Machine/Flags.lean ====
section
/-! DEFINITION. The condition register: its three values (R24), the flag update (R25) and the branch test (R110). -/

namespace Sys2Proof.Machine

/-- NEGATIVE, bit 2 (R24). -/
def condNegative : Cond := 0b100

/-- ZERO, bit 1 (R24). -/
def condZero : Cond := 0b010

/-- POSITIVE, bit 0 (R24). -/
def condPositive : Cond := 0b001

/-- `setcc(v)` (R25). -/
def setcc (v : Word) : Cond :=
  if v.msb then condNegative else if v = 0 then condZero else condPositive

/-- `R[r] <- v` and then `COND <- setcc(R[r])` (R25). -/
def State.setRegCC (s : State) (r : Reg) (v : Word) : State :=
  (s.setReg r v).setCond (setcc v)

/-- "(condition-mask AND COND) ≠ 0" (R110). -/
def State.branchTaken (s : State) (nzp : BitVec 3) : Bool :=
  nzp &&& s.cond != 0

/-- "exactly one holds at any time" (R24). -/
def condOneHot (c : Cond) : Bool :=
  c == condNegative || c == condZero || c == condPositive

end Sys2Proof.Machine
end

