-- ==== Sys2Proof/Machine/Operands.lean ====
section
/-! DEFINITION. Operand forms: sign extension (R9, R67, R68), the addressing modes of R121, and the halves of a Word
that the output routines name (R50). -/

namespace Sys2Proof.Machine

/-- `sext_N(v)`: copies of the field's high bit above it; no field is scaled (R9, R67). -/
def sext {n : Nat} (v : BitVec n) : Word :=
  v.signExtend 16

/-- `PC + sext(offset)`, modulo 65536, with PC at PC† (R61, R121). -/
def State.pcRelative {n : Nat} (s : State) (offset : BitVec n) : Word :=
  s.pc + sext offset

/-- `R[BaseR] + sext_6(offset6)`, modulo 65536 (R121). -/
def State.baseOffset (s : State) (baseR : Reg) (offset6 : BitVec 6) : Word :=
  s.reg baseR + sext offset6

/-- `w[7:0]`. -/
def lowByte (w : Word) : Byte :=
  w.extractLsb' 0 8

/-- `w[15:8]`. -/
def highByte (w : Word) : Byte :=
  w.extractLsb' 8 8

end Sys2Proof.Machine
end

