-- ==== Sys2Proof/Machine/Control.lean ====
section
/-! DEFINITION. Control transfer: BR, JMP (RET), JSR, JSRR (41_control.md). None writes COND (R26). -/

namespace Sys2Proof.Machine

/-- `R[7] <- PC`: the link JSR, JSRR and TRAP write, PC†; COND is not changed (R112, R113, R140). -/
def State.link (s : State) : State :=
  s.setReg .r7 s.pc

/-- `PC <- R[BaseR]` (R111). -/
def jumpThrough (baseR : Reg) (s : State) : State :=
  s.setPc (s.reg baseR)

/-- JSRR under each value of `JSRR_LINK_ORDER` (R113). -/
def callThrough (order : LinkOrder) (baseR : Reg) (s : State) : State :=
  match order with
  | .linkFirst => jumpThrough baseR s.link
  | .readFirst => s.link.setPc (s.reg baseR)

/-- R110. -/
def execBr (nzp : BitVec 3) (pcOffset9 : BitVec 9) (s : State) : Host.Outcome State Fault Refusal :=
  .next (if s.branchTaken nzp then s.setPc (s.pcRelative pcOffset9) else s)

/-- R111, RET = JMP R7. -/
def execRet (_x119 : BitVec 3) (_x50 : BitVec 6) (s : State) : Host.Outcome State Fault Refusal :=
  .next (jumpThrough .r7 s)

/-- R111. -/
def execJmp (_x119 : BitVec 3) (baseR : Reg) (_x50 : BitVec 6) (s : State) : Host.Outcome State Fault Refusal :=
  .next (jumpThrough baseR s)

/-- R112. -/
def execJsr (pcOffset11 : BitVec 11) (s : State) : Host.Outcome State Fault Refusal :=
  .next (s.link.setPc (s.pcRelative pcOffset11))

/-- R113. -/
def execJsrr (_x109 : BitVec 2) (baseR : Reg) (_x50 : BitVec 6) (s : State) : Host.Outcome State Fault Refusal :=
  .next (callThrough s.params.jsrrLinkOrder baseR s)

end Sys2Proof.Machine
end

