-- ==== Sys2Proof/Machine/LoadStore.lean ====
section
/-! DEFINITION. The load_store_unit: LD, LDI, LDR, LEA, ST, STI, STR (42_load_store.md). Every read is the polling
read, the pointer reads too (R48, R120); no access faults (R42). -/

namespace Sys2Proof.Machine

/-- `R[dr] <- MemRead(ea)` with the flags of the loaded word (R122, R124, R129). -/
def loadFrom (ea : Word) (dr : Reg) (s : State) : State :=
  let (v, s1) := s.memRead ea
  s1.setRegCC dr v

/-- R122. -/
def execLd (dr : Reg) (pcOffset9 : BitVec 9) (s : State) : Host.Outcome State Fault Refusal :=
  .next (loadFrom (s.pcRelative pcOffset9) dr s)

/-- R123: the pointer read first, then the data read. -/
def execLdi (dr : Reg) (pcOffset9 : BitVec 9) (s : State) : Host.Outcome State Fault Refusal :=
  let (p, s1) := s.memRead (s.pcRelative pcOffset9)
  .next (loadFrom p dr s1)

/-- R124. -/
def execLdr (dr baseR : Reg) (offset6 : BitVec 6) (s : State) : Host.Outcome State Fault Refusal :=
  .next (loadFrom (s.baseOffset baseR offset6) dr s)

/-- R125: the address itself, no memory access. -/
def execLea (dr : Reg) (pcOffset9 : BitVec 9) (s : State) : Host.Outcome State Fault Refusal :=
  .next (s.setRegCC dr (s.pcRelative pcOffset9))

/-- R126. -/
def execSt (sr : Reg) (pcOffset9 : BitVec 9) (s : State) : Host.Outcome State Fault Refusal :=
  .next (s.memWrite (s.pcRelative pcOffset9) (s.reg sr))

/-- R127: the pointer read may poll; the store goes where the read says. -/
def execSti (sr : Reg) (pcOffset9 : BitVec 9) (s : State) : Host.Outcome State Fault Refusal :=
  let (p, s1) := s.memRead (s.pcRelative pcOffset9)
  .next (s1.memWrite p (s1.reg sr))

/-- R128. -/
def execStr (sr baseR : Reg) (offset6 : BitVec 6) (s : State) : Host.Outcome State Fault Refusal :=
  .next (s.memWrite (s.baseOffset baseR offset6) (s.reg sr))

end Sys2Proof.Machine
end

