-- ==== Sys2Proof/Machine/Operate.lean ====
section
/-! DEFINITION. The operate instructions ADD, AND and NOT (40_operate.md). Every meaning runs on the state after the
fetch, where PC holds PC† (R61); every operand is read before the destination is written (R69). -/

namespace Sys2Proof.Machine

/-- R101. -/
def execAddReg (dr sr1 : Reg) (_x43 : BitVec 2) (sr2 : Reg) (s : State) : Host.Outcome State Fault Refusal :=
  .next (s.setRegCC dr (s.reg sr1 + s.reg sr2))

/-- R102. -/
def execAddImm (dr sr1 : Reg) (imm5 : BitVec 5) (s : State) : Host.Outcome State Fault Refusal :=
  .next (s.setRegCC dr (s.reg sr1 + sext imm5))

/-- R103. -/
def execAndReg (dr sr1 : Reg) (_x43 : BitVec 2) (sr2 : Reg) (s : State) : Host.Outcome State Fault Refusal :=
  .next (s.setRegCC dr (s.reg sr1 &&& s.reg sr2))

/-- R104. -/
def execAndImm (dr sr1 : Reg) (imm5 : BitVec 5) (s : State) : Host.Outcome State Fault Refusal :=
  .next (s.setRegCC dr (s.reg sr1 &&& sext imm5))

/-- R105. -/
def execNot (dr sr : Reg) (_x50 : BitVec 6) (s : State) : Host.Outcome State Fault Refusal :=
  .next (s.setRegCC dr (~~~ s.reg sr))

end Sys2Proof.Machine
end

