-- ==== Sys2Proof/Machine/Reserved.lean ====
section
/-! DEFINITION. The two opcodes that are a fatal fault whenever they execute: RES and RTI (44_reserved.md). The
fault's record holds the whole instruction word (R182). -/

namespace Sys2Proof.Machine

/-- R171: nothing is popped, nothing restored. -/
def execRti (x110 : BitVec 12) (s : State) : Host.Outcome State Fault Refusal :=
  .next (raiseFault .rtiUnimplemented (encode (.rti x110)) s)

/-- R170. -/
def execRes (x110 : BitVec 12) (s : State) : Host.Outcome State Fault Refusal :=
  .next (raiseFault .reservedOpcode (encode (.res x110)) s)

end Sys2Proof.Machine
end

