-- ==== Sys2Proof/Machine/Trap.lean ====
section
/-! DEFINITION. TRAP and the trap_dispatcher (43_trap.md): the write of R7, the six routines' issue steps, the
steps of WAIT_INPUT and STRING_OUT, and the unknown vector. A trap never moves PC (R156). -/

namespace Sys2Proof.Machine

/-! ## The routines, at dispatch (R141) -/

/-- R143. -/
def issueGetc (s : State) : State :=
  s.setRunState (.waitInput .getc)

/-- R145: `Output(R[0][7:0])`. -/
def issueOut (s : State) : State :=
  s.emit [lowByte (s.reg .r0)]

/-- R146. -/
def issuePuts (s : State) : State :=
  s.setRunState (.stringOut .puts (s.reg .r0))

/-- R148: the prompt, then the wait. -/
def issueIn (s : State) : State :=
  (s.emit Config.inPrompt).setRunState (.waitInput .inEcho)

/-- R150. -/
def issuePutsp (s : State) : State :=
  s.setRunState (.stringOut .putsp (s.reg .r0))

/-- R152: the notice, then HALTED. -/
def issueHalt (s : State) : State :=
  (s.emit Config.haltNotice).setRunState .halted

/-- R153, under each value of `UNKNOWN_TRAP_POLICY`. -/
def unknownTrap (policy : TrapPolicy) (ir : Word) (s : State) : State :=
  match policy with
  | .fault => raiseFault .unknownTrap ir s
  | .nop => s

/-- `TrapDispatch(v)` (R141); `ir` is the TRAP's word, which an unknown vector's fault records. -/
def trapDispatch (v : BitVec 8) (ir : Word) (s : State) : State :=
  if v = 0x20 then issueGetc s
  else if v = 0x21 then issueOut s
  else if v = 0x22 then issuePuts s
  else if v = 0x23 then issueIn s
  else if v = 0x24 then issuePutsp s
  else if v = 0x25 then issueHalt s
  else unknownTrap s.params.unknownTrapPolicy ir s

/-! ## The instruction (R140): R7 first, for every vector, then the dispatch -/

/-- R140, R143. -/
def execGetc (_x118 : BitVec 4) (s : State) : Host.Outcome State Fault Refusal :=
  .next (issueGetc s.link)

/-- R140, R145. -/
def execOut (_x118 : BitVec 4) (s : State) : Host.Outcome State Fault Refusal :=
  .next (issueOut s.link)

/-- R140, R146. -/
def execPuts (_x118 : BitVec 4) (s : State) : Host.Outcome State Fault Refusal :=
  .next (issuePuts s.link)

/-- R140, R148. -/
def execIn (_x118 : BitVec 4) (s : State) : Host.Outcome State Fault Refusal :=
  .next (issueIn s.link)

/-- R140, R150. -/
def execPutsp (_x118 : BitVec 4) (s : State) : Host.Outcome State Fault Refusal :=
  .next (issuePutsp s.link)

/-- R140, R152. -/
def execHalt (_x118 : BitVec 4) (s : State) : Host.Outcome State Fault Refusal :=
  .next (issueHalt s.link)

/-- R140, R153. -/
def execTrap (x118 : BitVec 4) (trapvect8 : BitVec 8) (s : State) : Host.Outcome State Fault Refusal :=
  .next (trapDispatch trapvect8 (encode (.trap x118 trapvect8)) s.link)

/-! ## The steps a routine takes before the next fetch -/

/-- What a waiting routine writes of its character: IN echoes its low byte, GETC nothing (R144, R149). -/
def echoOf (kind : InputKind) (c : Word) : List Byte :=
  match kind with
  | .getc => []
  | .inEcho => [lowByte c]

/-- The completion of GETC or IN with character `c` (R144, R149). -/
def completeInput (kind : InputKind) (c : Word) (s : State) : State :=
  trapReturn ((s.emit (echoOf kind c)).setRegCC .r0 c)

/-- A step in WAIT_INPUT(kind): it exists only when the device delivers a character (R144, R149). -/
def waitStep (kind : InputKind) (s : State) : Host.Outcome State Fault Refusal :=
  match s.awaitDevice with
  | some (c, s1) => .next (completeInput kind c s1)
  | none => .fault .waitingForInput

/-- What a string routine writes of a word that is not the terminator (R147, R151). -/
def stringBytes (kind : StringKind) (w : Word) : List Byte :=
  match kind with
  | .puts => [lowByte w]
  | .putsp => if highByte w = 0 then [lowByte w] else [lowByte w, highByte w]

/-- A step in STRING_OUT(kind, a), by the raw read (R147, R151). -/
def stringStep (kind : StringKind) (a : Word) (s : State) : State :=
  let w := s.memReadRaw a
  if w = 0 then trapReturn s
  else (s.emit (stringBytes kind w)).setRunState (.stringOut kind (a + 1))

end Sys2Proof.Machine
end

