-- ==== Sys2Proof/Machine/Dispatch.lean ====
section
/-! DEFINITION. Execute(d) of R60 and R77: each instruction's own meaning, on the state after its fetch. -/

namespace Sys2Proof.Machine

def exec (i : Instr) (s : State) : Host.Outcome State Fault Refusal :=
  match i with
  | .addReg dr sr1 x43 sr2 => Sys2Proof.Machine.execAddReg dr sr1 x43 sr2 s
  | .addImm dr sr1 imm5 => Sys2Proof.Machine.execAddImm dr sr1 imm5 s
  | .andReg dr sr1 x43 sr2 => Sys2Proof.Machine.execAndReg dr sr1 x43 sr2 s
  | .andImm dr sr1 imm5 => Sys2Proof.Machine.execAndImm dr sr1 imm5 s
  | .notReg dr sr x50 => Sys2Proof.Machine.execNot dr sr x50 s
  | .br nzp off => Sys2Proof.Machine.execBr nzp off s
  | .ret x119 x50 => Sys2Proof.Machine.execRet x119 x50 s
  | .jmp x119 baseR x50 => Sys2Proof.Machine.execJmp x119 baseR x50 s
  | .jsr off => Sys2Proof.Machine.execJsr off s
  | .jsrr x109 baseR x50 => Sys2Proof.Machine.execJsrr x109 baseR x50 s
  | .ld dr off => Sys2Proof.Machine.execLd dr off s
  | .ldi dr off => Sys2Proof.Machine.execLdi dr off s
  | .ldr dr baseR off => Sys2Proof.Machine.execLdr dr baseR off s
  | .lea dr off => Sys2Proof.Machine.execLea dr off s
  | .st sr off => Sys2Proof.Machine.execSt sr off s
  | .sti sr off => Sys2Proof.Machine.execSti sr off s
  | .str sr baseR off => Sys2Proof.Machine.execStr sr baseR off s
  | .getc x118 => Sys2Proof.Machine.execGetc x118 s
  | .out x118 => Sys2Proof.Machine.execOut x118 s
  | .puts x118 => Sys2Proof.Machine.execPuts x118 s
  | .inEcho x118 => Sys2Proof.Machine.execIn x118 s
  | .putsp x118 => Sys2Proof.Machine.execPutsp x118 s
  | .halt x118 => Sys2Proof.Machine.execHalt x118 s
  | .trap x118 v => Sys2Proof.Machine.execTrap x118 v s
  | .rti x110 => Sys2Proof.Machine.execRti x110 s
  | .res x110 => Sys2Proof.Machine.execRes x110 s

end Sys2Proof.Machine
end

