-- ==== Sys2Proof/Machine/Loader.lean ====
section
/-! DEFINITION. The image loader and the boot sequence (R200 to R206). A stream is its bytes, or `none` where it
cannot be opened (R204). -/

namespace Sys2Proof.Machine

/-- The Words of a payload, first byte of each pair in bits 15:8 (R201); a final odd byte is dropped (R205). -/
def payloadWords : List Byte → List Word
  | hi :: lo :: rest => (hi ++ lo) :: payloadWords rest
  | [_] => []
  | [] => []

/-- Words from address `a` upward, stopping after 0xFFFF and never wrapping (R202). -/
def loadWords (a : Nat) : List Word → Memory → Memory
  | [], m => m
  | w :: rest, m => if a < 65536 then loadWords (a + 1) rest (m.write (BitVec.ofNat 16 a) w) else m

/-- `LoadImage(bytes)` (R202), or `none` for a stream with no whole origin (R205). -/
def loadImage (bytes : List Byte) (m : Memory) : Option Memory :=
  match bytes with
  | hi :: lo :: payload => some (loadWords (hi ++ lo : Word).toNat (payloadWords payload) m)
  | [_] => none
  | [] => none

/-- The streams in order; a later image overwrites an earlier one (R203), and any failure fails them all (R204). -/
def loadImages : List (Option (List Byte)) → Memory → Option Memory
  | [], m => some m
  | none :: _, _ => none
  | some bytes :: rest, m =>
    match loadImage bytes m with
    | some m1 => loadImages rest m1
    | none => none

/-- The boot sequence (R200): the state in which the first step fetches, or `none` where the run does not start
(no image, or one that failed: R204). -/
def boot (streams : List (Option (List Byte))) : Option State :=
  match streams with
  | [] => none
  | _ :: _ => (loadImages streams State.reset.mem).map fun m => { State.reset with mem := m }

/-- The exit outcome of a boot that does not start the run (R196, R204). -/
def bootOutcome (streams : List (Option (List Byte))) : Option ExitOutcome :=
  match boot streams with
  | some _ => none
  | none => some .abnormal

/-- The process exit status of a boot that does not start the run (R196, `EXIT_STATUS` of R6). -/
def bootStatus (streams : List (Option (List Byte))) : Option Int :=
  (bootOutcome streams).map Config.exitStatus

end Sys2Proof.Machine
end

