-- ==== Sys2Proof/Machine/Step.lean ====
section
/-! DEFINITION. One step of the CORE (R60, R27): one instruction in RUNNING, one sub-step of the trap_dispatcher, or
the host's abort; and the placing of a word where the next step fetches. -/

namespace Sys2Proof.Machine

/-- In RUNNING: fetch, decode, execute (R60). -/
def stepInstruction (s : State) : Host.Outcome State Fault Refusal :=
  exec (decode (fetch s).1) (fetch s).2

/-- One step. A host abort falls between steps, so it takes the step's place when it is due (R186); the terminal
states have no step (R27, R208). -/
def step (s : State) : Host.Outcome State Fault Refusal :=
  match s.runState with
  | .halted => .fault .halted
  | .faulted code _ _ => .fault (.faulted code)
  | .aborted => .fault .aborted
  | .running => if s.abortDue then .next (hostAbort s) else stepInstruction s.tick
  | .waitInput kind => if s.abortDue then .next (hostAbort s) else waitStep kind s.tick
  | .stringOut kind a => if s.abortDue then .next (hostAbort s) else .next (stringStep kind a s.tick)

/-- An address at which a placed word is fetched as placed: PC, unless a fetch from there would poll the keyboard
over it (R48), in which case the next address. -/
def State.fetchSlot (s : State) : Word :=
  if s.pc = s.params.kbsrAddr then s.pc + 1 else s.pc

/-- `s` with the word placed where the next step fetches it, in RUNNING and with no abort due before it
(notes/assumptions/13.md). -/
def State.withFetchWord (s : State) (nbits w : Nat) : State :=
  { (s.memWrite s.fetchSlot (BitVec.ofNat 16 (w % 2 ^ nbits))) with
    pc := s.fetchSlot
    runState := .running
    abortIn := if s.abortDue then none else s.abortIn }

end Sys2Proof.Machine
end

