-- ==== Sys2Proof/Safety.lean ====
section
/-! DEFINITION. The terms claims are stated in: the invariant of the machine, what one state keeps of another, the
registers each instruction writes, a string in memory, and what a normal end is. -/

namespace Sys2Proof.Machine

/-! ## The invariant -/

/-- What holds of every state a run reaches: the memory is canonical, COND holds exactly one of its three values
(R24), and the two keyboard addresses differ (R6). -/
structure State.Inv (s : State) : Prop where
  mem_wf : s.mem.wf = true
  cond_oneHot : condOneHot s.cond = true
  keyboard_ne : s.params.kbsrAddr ≠ s.params.kbdrAddr

/-! ## Frames -/

/-- Every general register but those listed is as before. -/
def KeepsRegs (s t : State) (written : List Reg) : Prop :=
  ∀ r, r ∉ written → t.reg r = s.reg r

/-- Every word of memory but those listed reads as before. -/
def KeepsMem (s t : State) (written : List Word) : Prop :=
  ∀ a, a ∉ written → t.memReadRaw a = s.memReadRaw a

/-- The input device is where it was: nothing was asked of it. -/
def KeepsInput (s t : State) : Prop :=
  t.input = s.input ∧ t.inputDraws = s.inputDraws

/-- Run state, output trace and input device are as before. -/
def KeepsIo (s t : State) : Prop :=
  t.runState = s.runState ∧ t.output = s.output ∧ KeepsInput s t

/-- What no instruction writes: the host's schedule and the parameters. -/
def KeepsHost (s t : State) : Prop :=
  t.abortIn = s.abortIn ∧ t.params = s.params

end Sys2Proof.Machine

namespace Sys2Proof

/-- The general registers an instruction writes (R22). -/
def Instr.written : Instr → List Reg
  | .addReg dr _ _ _ | .addImm dr _ _ | .andReg dr _ _ _ | .andImm dr _ _ | .notReg dr _ _ => [dr]
  | .ld dr _ | .ldi dr _ | .ldr dr _ _ | .lea dr _ => [dr]
  | .jsr _ | .jsrr .. => [.r7]
  | .getc _ | .out _ | .puts _ | .inEcho _ | .putsp _ | .halt _ | .trap .. => [.r7]
  | .br .. | .ret .. | .jmp .. | .st .. | .sti .. | .str .. | .rti _ | .res _ => []

/-- The register whose new value sets COND, for the instructions that set it (R26). -/
def Instr.flagSource : Instr → Option Reg
  | .addReg dr _ _ _ | .addImm dr _ _ | .andReg dr _ _ _ | .andImm dr _ _ | .notReg dr _ _ => some dr
  | .ld dr _ | .ldi dr _ | .ldr dr _ _ | .lea dr _ => some dr
  | .jsr _ | .jsrr .. | .getc _ | .out _ | .puts _ | .inEcho _ | .putsp _ | .halt _ | .trap .. => none
  | .br .. | .ret .. | .jmp .. | .st .. | .sti .. | .str .. | .rti _ | .res _ => none

/-- The register an instruction stores and the address it stores to, on the state after its fetch: ST, STI (whose
pointer read may poll) and STR (R126, R127, R128). -/
def Instr.store (s : Machine.State) : Instr → Option (Reg × Word)
  | .st sr off => some (sr, s.pcRelative off)
  | .sti sr off => some (sr, (s.memRead (s.pcRelative off)).1)
  | .str sr baseR off => some (sr, s.baseOffset baseR off)
  | .addReg .. | .addImm .. | .andReg .. | .andImm .. | .notReg .. | .ld .. | .ldi .. | .ldr .. | .lea ..
  | .br .. | .ret .. | .jmp .. | .jsr _ | .jsrr .. | .getc _ | .out _ | .puts _ | .inEcho _ | .putsp _ | .halt _
  | .trap .. | .rti _ | .res _ => none

/-- The instructions that write PC: BR, JMP (RET), JSR, JSRR (R23). -/
def Instr.transfersControl : Instr → Bool
  | .br .. | .ret .. | .jmp .. | .jsr _ | .jsrr .. => true
  | .addReg .. | .addImm .. | .andReg .. | .andImm .. | .notReg .. | .ld .. | .ldi .. | .ldr .. | .lea ..
  | .st .. | .sti .. | .str .. | .getc _ | .out _ | .puts _ | .inEcho _ | .putsp _ | .halt _ | .trap ..
  | .rti _ | .res _ => false

/-- The instructions whose execution is a fatal fault under a policy: RES, RTI, and an unknown vector under
`fault` (R172, R181). -/
def Instr.faults (policy : TrapPolicy) : Instr → Bool
  | .rti _ | .res _ => true
  | .trap _ v => policy == .fault && !definedVector v
  | .addReg .. | .addImm .. | .andReg .. | .andImm .. | .notReg .. | .ld .. | .ldi .. | .ldr .. | .lea ..
  | .st .. | .sti .. | .str .. | .getc _ | .out _ | .puts _ | .inEcho _ | .putsp _ | .halt _
  | .br .. | .ret .. | .jmp .. | .jsr _ | .jsrr .. => false

end Sys2Proof

namespace Sys2Proof.Machine

/-- FAULTED(code, word, addr), for some code, word and address (R182). -/
def RunState.isFaulted : RunState → Bool
  | .faulted .. => true
  | .running | .waitInput _ | .stringOut .. | .halted | .aborted => false

/-- A run state without the instruction word its fault record holds. -/
def RunState.forgetWord : RunState → RunState
  | .faulted code _ addr => .faulted code 0 addr
  | .running => .running
  | .waitInput k => .waitInput k
  | .stringOut k a => .stringOut k a
  | .halted => .halted
  | .aborted => .aborted

/-! ## Strings and runs -/

/-- Memory holds the nonzero words `ws` from `a` upward, wrapping, and then a zero word (R147, R151). -/
def State.holdsString (s : State) (a : Word) : List Word → Prop
  | [] => s.memReadRaw a = 0
  | w :: ws => w ≠ 0 ∧ s.memReadRaw a = w ∧ s.holdsString (a + 1) ws

/-- The host does not abort within the next `n` steps. -/
def State.noAbortWithin (s : State) (n : Nat) : Prop :=
  ∀ k, s.abortIn = some k → n ≤ k

/-- `n` steps of the host's schedule go by. -/
def State.tickBy (s : State) (n : Nat) : State :=
  { s with abortIn := s.abortIn.map (· - n) }

/-- "Normal completion after a HALT trap" (R196). -/
def State.endedNormally (s : State) : Prop :=
  s.runState.exitOutcome = some .normal

/-- A state with bytes put before its output trace. -/
def State.prefixOutput (bs : List Byte) (s : State) : State :=
  { s with output := bs ++ s.output }

/-- An outcome with its next state, if it has one, changed. -/
def mapNext (f : State → State) : Host.Outcome State Fault Refusal → Host.Outcome State Fault Refusal
  | .next s => .next (f s)
  | .fault r => .fault r
  | .refused r => .refused r

end Sys2Proof.Machine
end

