-- ==== Sys2Proof/Certificates/Slice0/Obligations.lean ====
section
/-! DEFINITION. The statements for the provers. An instruction's meaning runs on the state after its fetch, so "PC" in
these statements is PC† (R61). Each instruction's statement has two parts: which words are that instruction and
where its operands stand, and what executing it does and leaves unchanged, for every operand and every state. -/

open Sys2Proof Sys2Proof.Machine

/-! ## Encoding -/

/-- Decoding the word of a well-formed instruction gives the instruction back, ignored bits too. Rests on the spec's
decisions D3, D4 and D6 for numbers, positions and ignored bits. -/
def Obligations.DecodeOfEncodeIsIdentity : Prop :=
  ∀ i : Instr, i.wellFormed = true → decode (encode i) = i

/-- Every one of the 65536 Words decodes to exactly one well-formed instruction, and encoding it gives the Word back
(R76: a total decoder with no invalid outcome). -/
def Obligations.EncodeOfDecodeIsIdentity : Prop :=
  ∀ w : Word, (decode w).wellFormed = true ∧ encode (decode w) = w

/-- The decoded class is c exactly where the word under c's mask is c's match: R66's table against R76's decoder. -/
def Obligations.DecoderFollowsMaskAndMatchTable : Prop :=
  ∀ (w : Word) (c : InstrClass), (decode w).instrClass = c ↔ w &&& c.mask = c.matchWord

/-- A sanity check: words the spec writes out decode to what it says they are (R81, R101 to R128, R142). -/
def Obligations.WordsOfTheSpecDecode : Prop :=
  decode 0x1065 = .addImm .r0 .r1 5 ∧ decode 0x105A = .addReg .r0 .r1 3 .r2 ∧ decode 0x54C4 = .andReg .r2 .r3 0 .r4 ∧
  decode 0x92BF = .notReg .r1 .r2 0x3F ∧ decode 0x0402 = .br 0b010 2 ∧ decode 0xC080 = .jmp 0 .r2 0 ∧
  decode 0xC1C0 = .ret 0 0 ∧ decode 0x4805 = .jsr 5 ∧ decode 0x40C0 = .jsrr 0 .r3 0 ∧
  decode 0xA5FE = .ldi .r2 0x1FE ∧ decode 0x7B9F = .str .r5 .r6 31 ∧ decode 0xF025 = .halt 0 ∧
  decode 0xF026 = .trap 0 0x26 ∧ decode 0xDFFF = .res 0xFFF ∧ decode 0x8000 = .rti 0

/-- sext_N keeps the field's bits and copies its high bit above them (R9, R67), for every width up to 16. -/
def Obligations.SextCopiesTheHighBit : Prop :=
  ∀ (n : Nat) (v : BitVec n) (i : Nat), 0 < n → n ≤ 16 → i < 16 →
    (sext v).getLsbD i = if i < n then v.getLsbD i else v.getLsbD (n - 1)

/-- A word runs as the same word with its ignored bits at zero (R70, the spec's decision D6): exactly so unless it is
a fatal fault, whose record holds the word itself (R182). -/
def Obligations.IgnoredBitsDoNotChangeExecution : Prop :=
  ∀ (w : Word) (s : State),
    let w0 := w &&& ~~~(decode w).instrClass.ignoredBits
    ((decode w).faults s.params.unknownTrapPolicy = false → exec (decode w) s = exec (decode w0) s) ∧
    ∃ t t0, exec (decode w) s = .next t ∧ exec (decode w0) s = .next t0 ∧
      t.setRunState t.runState.forgetWord = t0.setRunState t0.runState.forgetWord

/-! ## The step -/

/-- In RUNNING, with no abort due, a step is the decoded instruction's execution: the word MemRead gives at PC, run on
the state that read leaves with PC moved past it. Where PC is not the keyboard status address, a well-formed
instruction i whose word stands at PC is the one that runs, on the state with only PC (and the host's countdown)
moved. -/
def Obligations.StepExecutesTheInstructionAtPc : Prop :=
  (∀ s : State, s.runState = .running → s.abortDue = false →
    step s = exec (decode (s.tick.memRead s.pc).1) ((s.tick.memRead s.pc).2.setPc (s.pc + 1))) ∧
  (∀ (s : State) (i : Instr), s.runState = .running → s.abortDue = false → i.wellFormed = true →
    s.pc ≠ s.params.kbsrAddr → s.memReadRaw s.pc = encode i → step s = exec i (s.tick.setPc (s.pc + 1)))

/-- The host's interface: after withFetchWord the very next step executes the placed word, and every other word of
memory, every register and the device are as they were (model's own, log entry 13). -/
def Obligations.PlacedWordIsExecutedNext : Prop :=
  ∀ (s : State) (w : Word),
    let s' := s.withFetchWord 16 w.toNat
    step s' = exec (decode w) (s'.tick.setPc (s'.pc + 1)) ∧ (s.pc ≠ s.params.kbsrAddr → s'.pc = s.pc) ∧
    KeepsRegs s s' [] ∧ s'.cond = s.cond ∧ KeepsMem s s' [s'.pc] ∧ s'.output = s.output ∧ KeepsInput s s' ∧
    s'.params = s.params

/-- A fetch from the keyboard status address polls first (the spec's decision D10), so the word executed is the status
the poll leaves: RTI's fatal fault with a character pending, a no-operation without one. -/
def Obligations.FetchFromKeyboardStatusPolls : Prop :=
  ∀ (s : State) (rest : List (Option Word)), s.Inv → s.runState = .running → s.abortDue = false →
    s.pc = s.params.kbsrAddr →
    (∀ c, s.input = some c :: rest → ∃ t, step s = .next t ∧ t.pc = s.pc + 1 ∧ t.input = rest ∧
      t.memReadRaw s.params.kbdrAddr = c ∧ t.memReadRaw s.params.kbsrAddr = 0x8000 ∧
      t.runState = .faulted .rtiUnimplemented 0x8000 s.pc) ∧
    (s.input = none :: rest → ∃ t, step s = .next t ∧ t.pc = s.pc + 1 ∧ t.input = rest ∧
      t.memReadRaw s.params.kbsrAddr = 0x0000 ∧ t.runState = .running ∧ t.cond = s.cond ∧ KeepsRegs s t [])

/-- The Word 0x0000 only advances PC, and from 0xFFFF it leaves PC = 0x0000 (R62, R79). -/
def Obligations.ZeroWordOnlyAdvancesPc : Prop :=
  ∀ s : State, s.runState = .running → s.abortDue = false → s.pc ≠ s.params.kbsrAddr → s.memReadRaw s.pc = 0 →
    step s = .next (s.tick.setPc (s.pc + 1)) ∧ (s.pc = 0xFFFF → (s.tick.setPc (s.pc + 1)).pc = 0x0000)

/-- A store is seen by the very next fetch: an ST, STI or STR to the word after itself is followed by the stored word,
wherever neither fetch polls (R56, derived there, decision D20). -/
def Obligations.StoreIsSeenByTheNextFetch : Prop :=
  ∀ (s : State) (i : Instr) (sr : Reg), s.runState = .running → s.noAbortWithin 2 →
    s.memReadRaw s.pc = encode i → i.store (s.tick.setPc (s.pc + 1)) = some (sr, s.pc + 1) →
    s.pc ≠ s.params.kbsrAddr → s.pc + 1 ≠ s.params.kbsrAddr →
    ∃ t, step s = .next t ∧ t.pc = s.pc + 1 ∧ step t = exec (decode (s.reg sr)) (t.tick.setPc (s.pc + 2))

/-- A run has ended exactly in HALTED, FAULTED and ABORTED: there, and only there, does the CORE stop for good; and it
never refuses (R208, R180). The outcome the host sees is normal in HALTED only, abnormal in FAULTED, the host's signal in
ABORTED (R196); the number it gets for it is a free value (log entry 8). -/
def Obligations.OnlyTerminalStatesHaveNoStep : Prop :=
  ∀ s : State,
    ((∃ r, r ≠ Fault.waitingForInput ∧ step s = .fault r) ↔
      (s.runState = .halted ∨ s.runState = .aborted ∨ ∃ c w a, s.runState = .faulted c w a)) ∧
    (∀ r, step s ≠ .refused r) ∧
    (s.runState.exitOutcome = some .normal ↔ s.runState = .halted) ∧
    (s.runState.exitOutcome = some .abnormal ↔ ∃ c w a, s.runState = .faulted c w a) ∧
    (s.runState.exitOutcome = some .hostSignal ↔ s.runState = .aborted) ∧
    (∀ n, s.runState.exitStatus = some n ↔ ∃ o, s.runState.exitOutcome = some o ∧ n = Config.exitStatus o)

/-- The host may end a run between any two steps in RUNNING, WAIT_INPUT or STRING_OUT: ABORTED, all else as it was; a
terminal state is not changed by an abort (R184, R186; the spec's decision D18, the schedule is log entry 6). -/
def Obligations.AbortFallsBetweenSteps : Prop :=
  ∀ s : State,
    (s.runState.terminal = false → hostAbort s = { s with runState := .aborted }) ∧
    (s.runState.terminal = true → hostAbort s = s) ∧
    (s.runState.terminal = false → s.abortDue = true → step s = .next (hostAbort s)) ∧
    (s.runState.terminal = true → ∀ n, ∃ r, step { s with abortIn := n } = .fault r ∧ r ≠ .waitingForInput)

/-- The progress facts of R211, for a step that is not the host's abort: RUNNING and STRING_OUT always step, and
WAIT_INPUT steps exactly when the device delivers a character. -/
def Obligations.ProgressOfEachRunState : Prop :=
  ∀ s : State, s.abortDue = false →
    (s.runState = .running → ∃ t, step s = .next t) ∧
    (∀ k a, s.runState = .stringOut k a → ∃ t, step s = .next t) ∧
    (∀ k, s.runState = .waitInput k →
      ((∃ t, step s = .next t) ↔ (∃ c, some c ∈ s.input) ∨ (Config.freeInput s.inputDraws).isSome = true))

/-! ## Invariants and whole-machine rules -/

/-- Every step keeps the memory canonical, COND one of its three values, and the keyboard addresses apart; and no step
writes a parameter of R6 (the model's own form of them, log entry 7). -/
def Obligations.StepKeepsTheInvariant : Prop :=
  ∀ s t : State, step s = .next t → (s.Inv → t.Inv) ∧ t.params = s.params

/-- Reset meets the invariant. -/
def Obligations.ResetMeetsTheInvariant : Prop :=
  State.reset.Inv

/-- The output trace is empty at reset and is only ever appended to (R28). -/
def Obligations.OutputTraceOnlyGrows : Prop :=
  State.reset.output = [] ∧ ∀ s t : State, step s = .next t → ∃ bs, t.output = s.output ++ bs

/-- The CORE never reads its output trace: a step from a state with other earlier output is the same step. -/
def Obligations.OutputTraceIsNeverRead : Prop :=
  ∀ (s : State) (bs : List Byte), step (s.prefixOutput bs) = mapNext (State.prefixOutput bs) (step s)

/-- Each instruction writes the general registers of R22's table and no others; the completion of GETC or IN writes
R0; a string step writes none. -/
def Obligations.OnlyListedRegistersAreWritten : Prop :=
  (∀ (i : Instr) (s t : State), exec i s = .next t → KeepsRegs s t i.written) ∧
  (∀ (k : InputKind) (s t : State), waitStep k s = .next t → KeepsRegs s t [.r0]) ∧
  (∀ (k : StringKind) (a : Word) (s : State), KeepsRegs s (stringStep k a s) [])

/-- PC is written only by the fetch increment, BR, JMP, JSR and JSRR (R23): no other instruction, no trap routine and
no host abort moves it. -/
def Obligations.OnlyControlTransfersWritePc : Prop :=
  (∀ (i : Instr) (s t : State), exec i s = .next t → i.transfersControl = false → t.pc = s.pc) ∧
  (∀ s t : State, step s = .next t → s.runState ≠ .running → t.pc = s.pc) ∧
  (∀ s : State, (fetch s).2.pc = s.pc + 1)

/-- Exactly ADD, AND, NOT, LD, LDI, LDR, LEA and the completions of GETC and IN set COND, each from the value its
destination register then holds (R26). -/
def Obligations.OnlyListedOperationsSetCond : Prop :=
  (∀ (i : Instr) (s t : State), exec i s = .next t →
    (∀ r, i.flagSource = some r → t.cond = setcc (t.reg r)) ∧ (i.flagSource = none → t.cond = s.cond)) ∧
  (∀ (k : InputKind) (s t : State), waitStep k s = .next t → t.cond = setcc (t.reg .r0)) ∧
  (∀ (k : StringKind) (a : Word) (s : State), (stringStep k a s).cond = s.cond)

/-- No opcode but RES and RTI faults, and TRAP only for an unknown vector under the policy `fault` (R172); every
instruction answers a next state. -/
def Obligations.OnlyReservedOpcodesAndUnknownTrapsFault : Prop :=
  ∀ (i : Instr) (s : State), ∃ t, exec i s = .next t ∧
    (s.runState.isFaulted = false → t.runState.isFaulted = i.faults s.params.unknownTrapPolicy)

/-- The reset values of R32; a booted state differs from them in memory only, which is what loading the images in order
into the reset memory leaves. -/
def Obligations.ResetLeavesTheListedValues : Prop :=
  (∀ r, State.reset.reg r = 0x0000) ∧ State.reset.pc = 0x3000 ∧ State.reset.cond = condZero ∧
  State.reset.runState = .running ∧ (∀ a, State.reset.memReadRaw a = 0x0000) ∧ State.reset.output = [] ∧
  ∀ streams t, boot streams = some t →
    t = { State.reset with mem := t.mem } ∧ loadImages streams State.reset.mem = some t.mem

/-- setcc: NEGATIVE if the most significant bit is 1, else ZERO if the value is 0, else POSITIVE (R25; the encoding of
the three values is the spec's decision D5 in R24). -/
def Obligations.SetccFollowsTheSign : Prop :=
  ∀ v : Word, (32768 ≤ v.toNat → setcc v = 0b100) ∧ (v.toNat = 0 → setcc v = 0b010) ∧
    (0 < v.toNat → v.toNat < 32768 → setcc v = 0b001)

/-! ## Memory and the keyboard -/

/-- MemWrite stores the word at every address, the keyboard's too, with no other effect, and no access faults (R42,
R43; verbatim keyboard writes are the spec's decision D27). -/
def Obligations.WriteChangesExactlyOneWord : Prop :=
  ∀ (s : State) (a v b : Word),
    (s.memWrite a v).memReadRaw b = (if b = a then v else s.memReadRaw b) ∧
    KeepsRegs s (s.memWrite a v) [] ∧ (s.memWrite a v).cond = s.cond ∧ (s.memWrite a v).pc = s.pc ∧
    KeepsIo s (s.memWrite a v) ∧ KeepsHost s (s.memWrite a v)

/-- Two canonical memories that read alike at every address are equal data (model's own, log entry 1). -/
def Obligations.CanonicalMemoryIsUnique : Prop :=
  ∀ m n : Memory, m.wf = true → n.wf = true → (∀ a, m.read a = n.read a) → m = n

/-- A read of any address but the keyboard status is pure, the keyboard data register's too (R44); a read of the keyboard
status polls first and returns the status as the poll left it (R45). -/
def Obligations.MemReadPollsOnlyAtKeyboardStatus : Prop :=
  ∀ s : State,
    (∀ a, a ≠ s.params.kbsrAddr → s.memRead a = (s.memReadRaw a, s)) ∧
    s.memRead s.params.kbsrAddr = (s.keyboardPoll.memReadRaw s.params.kbsrAddr, s.keyboardPoll)

/-- The keyboard poll (R46): a ready device gives one character to the data address and sets the status to 0x8000; a
device that is not ready clears the status to 0x0000 (both status words are the spec's decision D9). Nothing else
changes. -/
def Obligations.KeyboardPollLatchesOrClears : Prop :=
  ∀ s : State, s.params.kbsrAddr ≠ s.params.kbdrAddr →
    let t := s.keyboardPoll
    (∀ c, s.pollDevice.1 = some c → t.memReadRaw s.params.kbsrAddr = 0x8000 ∧ t.memReadRaw s.params.kbdrAddr = c) ∧
    (s.pollDevice.1 = none → t.memReadRaw s.params.kbsrAddr = 0x0000 ∧ KeepsMem s t [s.params.kbsrAddr]) ∧
    KeepsMem s t [s.params.kbsrAddr, s.params.kbdrAddr] ∧ KeepsRegs s t [] ∧ t.cond = s.cond ∧ t.pc = s.pc ∧
    t.runState = s.runState ∧ t.output = s.output ∧ KeepsHost s t

/-- Each character is consumed once: a poll takes exactly the device's next answer, and a wait exactly the characters'
first, leaving what follows (R155; the answers' form is log entries 2, 3 and 4). -/
def Obligations.EachAnswerIsConsumedOnce : Prop :=
  ∀ s : State,
    (∀ a later, s.input = a :: later → s.pollDevice = (a, { s with input := later })) ∧
    (s.input = [] →
      s.pollDevice = (Config.freeInput s.inputDraws, { s with inputDraws := s.inputDraws + 1 })) ∧
    (∀ n c later, s.input = List.replicate n none ++ some c :: later →
      s.awaitDevice = some (c, { s with input := later })) ∧
    (∀ n, s.input = List.replicate n none →
      s.awaitDevice = (Config.freeInput s.inputDraws).map
        fun c => (c, { s with input := [], inputDraws := s.inputDraws + 1 }))

/-! ## Operate instructions -/

/-- ADD, both forms (R101, R102). -/
def Obligations.AddSetsDestinationAndFlags : Prop :=
  (∀ w : Word, (w &&& 0xF020 = 0x1000 → decode w = .addReg (regField w 9) (regField w 6) (field w 3 2) (regField w 0)) ∧
    (w &&& 0xF020 = 0x1020 → decode w = .addImm (regField w 9) (regField w 6) (field w 0 5))) ∧
  (∀ (dr sr1 sr2 : Reg) (x : BitVec 2) (s : State), ∃ t, exec (.addReg dr sr1 x sr2) s = .next t ∧
    t.reg dr = s.reg sr1 + s.reg sr2 ∧ t.cond = setcc (s.reg sr1 + s.reg sr2) ∧ KeepsRegs s t [dr] ∧ t.pc = s.pc ∧
    KeepsMem s t [] ∧ KeepsIo s t ∧ KeepsHost s t) ∧
  (∀ (dr sr1 : Reg) (imm5 : BitVec 5) (s : State), ∃ t, exec (.addImm dr sr1 imm5) s = .next t ∧
    t.reg dr = s.reg sr1 + imm5.signExtend 16 ∧ t.cond = setcc (s.reg sr1 + imm5.signExtend 16) ∧
    KeepsRegs s t [dr] ∧ t.pc = s.pc ∧ KeepsMem s t [] ∧ KeepsIo s t ∧ KeepsHost s t)

/-- AND, both forms (R103, R104). -/
def Obligations.AndSetsDestinationAndFlags : Prop :=
  (∀ w : Word, (w &&& 0xF020 = 0x5000 → decode w = .andReg (regField w 9) (regField w 6) (field w 3 2) (regField w 0)) ∧
    (w &&& 0xF020 = 0x5020 → decode w = .andImm (regField w 9) (regField w 6) (field w 0 5))) ∧
  (∀ (dr sr1 sr2 : Reg) (x : BitVec 2) (s : State), ∃ t, exec (.andReg dr sr1 x sr2) s = .next t ∧
    t.reg dr = s.reg sr1 &&& s.reg sr2 ∧ t.cond = setcc (s.reg sr1 &&& s.reg sr2) ∧ KeepsRegs s t [dr] ∧
    t.pc = s.pc ∧ KeepsMem s t [] ∧ KeepsIo s t ∧ KeepsHost s t) ∧
  (∀ (dr sr1 : Reg) (imm5 : BitVec 5) (s : State), ∃ t, exec (.andImm dr sr1 imm5) s = .next t ∧
    t.reg dr = s.reg sr1 &&& imm5.signExtend 16 ∧ t.cond = setcc (s.reg sr1 &&& imm5.signExtend 16) ∧
    KeepsRegs s t [dr] ∧ t.pc = s.pc ∧ KeepsMem s t [] ∧ KeepsIo s t ∧ KeepsHost s t)

/-- NOT (R105), bits 5:0 ignored (the spec's decision D6). -/
def Obligations.NotComplementsItsSource : Prop :=
  (∀ w : Word, w &&& 0xF000 = 0x9000 → decode w = .notReg (regField w 9) (regField w 6) (field w 0 6)) ∧
  (∀ (dr sr : Reg) (x : BitVec 6) (s : State), ∃ t, exec (.notReg dr sr x) s = .next t ∧
    t.reg dr = ~~~ s.reg sr ∧ t.cond = setcc (~~~ s.reg sr) ∧ KeepsRegs s t [dr] ∧ t.pc = s.pc ∧ KeepsMem s t [] ∧
    KeepsIo s t ∧ KeepsHost s t)

/-! ## Control transfer -/

/-- BR (R110): taken exactly when (mask AND COND) ≠ 0, to PC† plus the offset; mask 000 is never taken and, COND being
one-hot, mask 111 always (the pairing of bits is the spec's decision D5). -/
def Obligations.BranchTestsMaskAgainstCond : Prop :=
  (∀ w : Word, w &&& 0xF000 = 0x0000 → decode w = .br (field w 9 3) (field w 0 9)) ∧
  (∀ (nzp : BitVec 3) (off : BitVec 9) (s : State), ∃ t, exec (.br nzp off) s = .next t ∧
    t.pc = (if nzp &&& s.cond ≠ 0 then s.pc + off.signExtend 16 else s.pc) ∧
    (nzp = 0b000 → t.pc = s.pc) ∧ (nzp = 0b111 → condOneHot s.cond = true → t.pc = s.pc + off.signExtend 16) ∧
    KeepsRegs s t [] ∧ t.cond = s.cond ∧ KeepsMem s t [] ∧ KeepsIo s t ∧ KeepsHost s t)

/-- JMP, and RET as JMP R7 (R111; ignored bits by the spec's decision D6). -/
def Obligations.JumpGoesToTheBaseRegister : Prop :=
  (∀ w : Word, w &&& 0xF000 = 0xC000 → decode w =
    if regField w 6 = .r7 then .ret (field w 9 3) (field w 0 6) else .jmp (field w 9 3) (regField w 6) (field w 0 6)) ∧
  (∀ (x : BitVec 3) (b : Reg) (y : BitVec 6) (s : State), ∃ t, exec (.jmp x b y) s = .next t ∧
    t.pc = s.reg b ∧ KeepsRegs s t [] ∧ t.cond = s.cond ∧ KeepsMem s t [] ∧ KeepsIo s t ∧ KeepsHost s t) ∧
  (∀ (x : BitVec 3) (y : BitVec 6) (s : State), ∃ t, exec (.ret x y) s = .next t ∧
    t.pc = s.reg .r7 ∧ KeepsRegs s t [] ∧ t.cond = s.cond ∧ KeepsMem s t [] ∧ KeepsIo s t ∧ KeepsHost s t)

/-- JSR (R112): R7 gets PC†, and PC gets PC† plus the offset. -/
def Obligations.JsrLinksAndBranches : Prop :=
  (∀ w : Word, w &&& 0xF800 = 0x4800 → decode w = .jsr (field w 0 11)) ∧
  (∀ (off : BitVec 11) (s : State), ∃ t, exec (.jsr off) s = .next t ∧
    t.reg .r7 = s.pc ∧ t.pc = s.pc + off.signExtend 16 ∧ KeepsRegs s t [.r7] ∧ t.cond = s.cond ∧ KeepsMem s t [] ∧
    KeepsIo s t ∧ KeepsHost s t)

/-- JSRR (R113): R7 gets PC†; PC gets BaseR, read after that write under link_first (the default, decision D16) and
before it under read_first; the two differ for BaseR = R7 only. -/
def Obligations.JsrrLinksAndJumpsInEitherOrder : Prop :=
  (∀ w : Word, w &&& 0xF800 = 0x4000 → decode w = .jsrr (field w 9 2) (regField w 6) (field w 0 6)) ∧
  State.reset.params.jsrrLinkOrder = .linkFirst ∧
  (∀ (x : BitVec 2) (b : Reg) (y : BitVec 6) (s : State), ∃ t, exec (.jsrr x b y) s = .next t ∧
    t.reg .r7 = s.pc ∧ (b ≠ .r7 → t.pc = s.reg b) ∧
    (b = .r7 → t.pc = match s.params.jsrrLinkOrder with | .linkFirst => s.pc | .readFirst => s.reg .r7) ∧
    KeepsRegs s t [.r7] ∧ t.cond = s.cond ∧ KeepsMem s t [] ∧ KeepsIo s t ∧ KeepsHost s t)

/-! ## Loads and stores -/

/-- LD (R122): DR gets MemRead(PC† + offset) and COND its flags. Away from the keyboard status no other state changes;
at it, what changes besides is what the poll changes. -/
def Obligations.LdLoadsPcRelative : Prop :=
  (∀ w : Word, w &&& 0xF000 = 0x2000 → decode w = .ld (regField w 9) (field w 0 9)) ∧
  (∀ (dr : Reg) (off : BitVec 9) (s : State),
    let ea := s.pc + off.signExtend 16
    let m := s.memRead ea
    ∃ t, exec (.ld dr off) s = .next t ∧ t.reg dr = m.1 ∧ t.cond = setcc m.1 ∧ KeepsRegs s t [dr] ∧ t.pc = s.pc ∧
      KeepsMem m.2 t [] ∧ KeepsInput m.2 t ∧ t.runState = s.runState ∧ t.output = s.output ∧ KeepsHost s t ∧
      (ea ≠ s.params.kbsrAddr → t.reg dr = s.memReadRaw ea ∧ KeepsMem s t [] ∧ KeepsInput s t))

/-- LDI (R123): the pointer read first, the data read second, each a MemRead. -/
def Obligations.LdiLoadsThroughThePointer : Prop :=
  (∀ w : Word, w &&& 0xF000 = 0xA000 → decode w = .ldi (regField w 9) (field w 0 9)) ∧
  (∀ (dr : Reg) (off : BitVec 9) (s : State),
    let ea := s.pc + off.signExtend 16
    let p := s.memRead ea
    let m := p.2.memRead p.1
    ∃ t, exec (.ldi dr off) s = .next t ∧ t.reg dr = m.1 ∧ t.cond = setcc m.1 ∧ KeepsRegs s t [dr] ∧ t.pc = s.pc ∧
      KeepsMem m.2 t [] ∧ KeepsInput m.2 t ∧ t.runState = s.runState ∧ t.output = s.output ∧ KeepsHost s t ∧
      (ea ≠ s.params.kbsrAddr → s.memReadRaw ea ≠ s.params.kbsrAddr →
        t.reg dr = s.memReadRaw (s.memReadRaw ea) ∧ KeepsMem s t [] ∧ KeepsInput s t))

/-- LDR (R124): DR gets MemRead(BaseR + offset), the base read before DR is written. -/
def Obligations.LdrLoadsBaseOffset : Prop :=
  (∀ w : Word, w &&& 0xF000 = 0x6000 → decode w = .ldr (regField w 9) (regField w 6) (field w 0 6)) ∧
  (∀ (dr b : Reg) (off : BitVec 6) (s : State),
    let ea := s.reg b + off.signExtend 16
    let m := s.memRead ea
    ∃ t, exec (.ldr dr b off) s = .next t ∧ t.reg dr = m.1 ∧ t.cond = setcc m.1 ∧ KeepsRegs s t [dr] ∧ t.pc = s.pc ∧
      KeepsMem m.2 t [] ∧ KeepsInput m.2 t ∧ t.runState = s.runState ∧ t.output = s.output ∧ KeepsHost s t ∧
      (ea ≠ s.params.kbsrAddr → t.reg dr = s.memReadRaw ea ∧ KeepsMem s t [] ∧ KeepsInput s t))

/-- LEA (R125): DR gets the address and COND its flags; no memory access, so no poll. -/
def Obligations.LeaLoadsTheAddress : Prop :=
  (∀ w : Word, w &&& 0xF000 = 0xE000 → decode w = .lea (regField w 9) (field w 0 9)) ∧
  (∀ (dr : Reg) (off : BitVec 9) (s : State), ∃ t, exec (.lea dr off) s = .next t ∧
    t.reg dr = s.pc + off.signExtend 16 ∧ t.cond = setcc (s.pc + off.signExtend 16) ∧ KeepsRegs s t [dr] ∧
    t.pc = s.pc ∧ KeepsMem s t [] ∧ KeepsIo s t ∧ KeepsHost s t)

/-- ST (R126): the word at PC† + offset becomes SR; every other word, and all else, is unchanged. -/
def Obligations.StStoresPcRelative : Prop :=
  (∀ w : Word, w &&& 0xF000 = 0x3000 → decode w = .st (regField w 9) (field w 0 9)) ∧
  (∀ (sr : Reg) (off : BitVec 9) (s : State),
    let ea := s.pc + off.signExtend 16
    ∃ t, exec (.st sr off) s = .next t ∧ t.memReadRaw ea = s.reg sr ∧ KeepsMem s t [ea] ∧
      KeepsRegs s t [] ∧ t.cond = s.cond ∧ t.pc = s.pc ∧ KeepsIo s t ∧ KeepsHost s t)

/-- STI (R127): the store goes to the word MemRead gives at PC† + offset, which polls at the keyboard status (the
spec's decision D10); every other word is as that read left it. -/
def Obligations.StiStoresThroughThePointer : Prop :=
  (∀ w : Word, w &&& 0xF000 = 0xB000 → decode w = .sti (regField w 9) (field w 0 9)) ∧
  (∀ (sr : Reg) (off : BitVec 9) (s : State),
    let ea := s.pc + off.signExtend 16
    let p := s.memRead ea
    ∃ t, exec (.sti sr off) s = .next t ∧ t.memReadRaw p.1 = s.reg sr ∧ KeepsMem p.2 t [p.1] ∧ KeepsInput p.2 t ∧
      KeepsRegs s t [] ∧ t.cond = s.cond ∧ t.pc = s.pc ∧ t.runState = s.runState ∧ t.output = s.output ∧
      KeepsHost s t ∧
      (ea ≠ s.params.kbsrAddr → p.1 = s.memReadRaw ea ∧ KeepsMem s t [s.memReadRaw ea] ∧ KeepsInput s t))

/-- STR (R128): the word at BaseR + offset becomes SR; every other word, and all else, is unchanged. -/
def Obligations.StrStoresBaseOffset : Prop :=
  (∀ w : Word, w &&& 0xF000 = 0x7000 → decode w = .str (regField w 9) (regField w 6) (field w 0 6)) ∧
  (∀ (sr b : Reg) (off : BitVec 6) (s : State),
    let ea := s.reg b + off.signExtend 16
    ∃ t, exec (.str sr b off) s = .next t ∧ t.memReadRaw ea = s.reg sr ∧ KeepsMem s t [ea] ∧
      KeepsRegs s t [] ∧ t.cond = s.cond ∧ t.pc = s.pc ∧ KeepsIo s t ∧ KeepsHost s t)

/-! ## TRAP and its routines -/

/-- A TRAP word is its vector's routine, whatever bits 11:8 hold, and executing TRAP with a defined vector is executing
that routine (R140, R141, R142; the numbers 0x20 to 0x24 are the spec's decision D7). -/
def Obligations.TrapVectorSelectsTheRoutine : Prop :=
  (∀ w : Word, w &&& 0xF000 = 0xF000 → decode w =
    if field w 0 8 = 0x20 then .getc (field w 8 4) else if field w 0 8 = 0x21 then .out (field w 8 4)
    else if field w 0 8 = 0x22 then .puts (field w 8 4) else if field w 0 8 = 0x23 then .inEcho (field w 8 4)
    else if field w 0 8 = 0x24 then .putsp (field w 8 4) else if field w 0 8 = 0x25 then .halt (field w 8 4)
    else .trap (field w 8 4) (field w 0 8)) ∧
  (∀ (x : BitVec 4) (s : State),
    exec (.trap x 0x20) s = exec (.getc x) s ∧ exec (.trap x 0x21) s = exec (.out x) s ∧
    exec (.trap x 0x22) s = exec (.puts x) s ∧ exec (.trap x 0x23) s = exec (.inEcho x) s ∧
    exec (.trap x 0x24) s = exec (.putsp x) s ∧ exec (.trap x 0x25) s = exec (.halt x) s)

/-- GETC's and IN's issue (R143, R148): R7 gets PC†, IN writes the prompt, and the CORE waits; nothing else changes. -/
def Obligations.GetcAndInEnterTheWait : Prop :=
  ∀ (x : BitVec 4) (s : State),
    (∃ t, exec (.getc x) s = .next t ∧ t.reg .r7 = s.pc ∧ t.runState = .waitInput .getc ∧ t.output = s.output ∧
      KeepsRegs s t [.r7] ∧ t.cond = s.cond ∧ t.pc = s.pc ∧ KeepsMem s t [] ∧ KeepsInput s t ∧ KeepsHost s t) ∧
    (∃ t, exec (.inEcho x) s = .next t ∧ t.reg .r7 = s.pc ∧ t.runState = .waitInput .inEcho ∧
      t.output = s.output ++ Config.inPrompt ∧
      KeepsRegs s t [.r7] ∧ t.cond = s.cond ∧ t.pc = s.pc ∧ KeepsMem s t [] ∧ KeepsInput s t ∧ KeepsHost s t)

/-- GETC's completion (R144): in WAIT_INPUT(GETC), the delivered character goes to R0 with its flags, nothing is
written out, the state is RUNNING; with no character there is no step, but for the host's abort. When a character is
delivered is the model's own form (log entries 2, 3, 4), as is the named stop (5); that an abort ends the wait is the
spec's decision D18, its moment log entry 6. -/
def Obligations.GetcCompletesWithTheCharacter : Prop :=
  ∀ s : State, s.runState = .waitInput .getc →
    (∀ c u, s.abortDue = false → s.tick.awaitDevice = some (c, u) → ∃ t, step s = .next t ∧ t.reg .r0 = c ∧
      t.cond = setcc c ∧ t.runState = .running ∧ t.output = s.output ∧ KeepsRegs s t [.r0] ∧ t.pc = s.pc ∧
      KeepsMem s t [] ∧ KeepsInput u t ∧ t.params = s.params) ∧
    (s.abortDue = false → (step s = .fault .waitingForInput ↔
      (∀ c, some c ∉ s.input) ∧ Config.freeInput s.inputDraws = none)) ∧
    (s.abortDue = true → step s = .next (hostAbort s))

/-- IN's completion (R149): as GETC's, with the character's low byte echoed; the same choices of the model (log entries
2, 3, 4, 5, 6) and decision D18. -/
def Obligations.InCompletesWithTheEcho : Prop :=
  ∀ s : State, s.runState = .waitInput .inEcho →
    (∀ c u, s.abortDue = false → s.tick.awaitDevice = some (c, u) → ∃ t, step s = .next t ∧ t.reg .r0 = c ∧
      t.cond = setcc c ∧ t.runState = .running ∧ t.output = s.output ++ [c.setWidth 8] ∧ KeepsRegs s t [.r0] ∧ t.pc = s.pc ∧
      KeepsMem s t [] ∧ KeepsInput u t ∧ t.params = s.params) ∧
    (s.abortDue = false → (step s = .fault .waitingForInput ↔
      (∀ c, some c ∉ s.input) ∧ Config.freeInput s.inputDraws = none)) ∧
    (s.abortDue = true → step s = .next (hostAbort s))

/-- OUT (R145): R0's low byte is written out, bits 15:8 ignored (the spec's decision D25); R7 gets PC†; still
RUNNING. -/
def Obligations.OutWritesTheLowByteOfR0 : Prop :=
  ∀ (x : BitVec 4) (s : State), ∃ t, exec (.out x) s = .next t ∧
    t.output = s.output ++ [(s.reg .r0).setWidth 8] ∧ t.reg .r7 = s.pc ∧ KeepsRegs s t [.r7] ∧ t.cond = s.cond ∧
    t.pc = s.pc ∧ KeepsMem s t [] ∧ t.runState = s.runState ∧ KeepsInput s t ∧ KeepsHost s t

/-- PUTS' and PUTSP's issue (R146, R150): STRING_OUT at the value of R0; R7 gets PC†; R0 and all else unchanged. -/
def Obligations.PutsAndPutspStartAtR0 : Prop :=
  ∀ (x : BitVec 4) (s : State),
    (∃ t, exec (.puts x) s = .next t ∧ t.runState = .stringOut .puts (s.reg .r0) ∧ t.reg .r7 = s.pc ∧
      t.output = s.output ∧ KeepsRegs s t [.r7] ∧ t.cond = s.cond ∧ t.pc = s.pc ∧ KeepsMem s t [] ∧ KeepsInput s t ∧
      KeepsHost s t) ∧
    (∃ t, exec (.putsp x) s = .next t ∧ t.runState = .stringOut .putsp (s.reg .r0) ∧ t.reg .r7 = s.pc ∧
      t.output = s.output ∧ KeepsRegs s t [.r7] ∧ t.cond = s.cond ∧ t.pc = s.pc ∧ KeepsMem s t [] ∧ KeepsInput s t ∧
      KeepsHost s t)

/-- One string step (R147, R151): a zero word ends the string and is not written; any other gives its low byte, and
in PUTSP then its high byte if that is not zero, and the address moves on by one, modulo 65536. The read is raw: it
polls nothing (R47, the spec's decision D10). -/
def Obligations.StringStepWritesOneWord : Prop :=
  ∀ (s : State) (k : StringKind) (a : Word), s.runState = .stringOut k a → s.abortDue = false →
    let w := s.memReadRaw a
    ∃ t, step s = .next t ∧ KeepsRegs s t [] ∧ t.cond = s.cond ∧ t.pc = s.pc ∧ KeepsMem s t [] ∧ KeepsInput s t ∧
      t.params = s.params ∧
      (w = 0 → t.runState = .running ∧ t.output = s.output) ∧
      (w ≠ 0 → t.runState = .stringOut k (a + 1)) ∧
      (w ≠ 0 → k = .puts → t.output = s.output ++ [w.setWidth 8]) ∧
      (w ≠ 0 → k = .putsp → w.toNat < 256 → t.output = s.output ++ [w.setWidth 8]) ∧
      (w ≠ 0 → k = .putsp → 256 ≤ w.toNat → t.output = s.output ++ [w.setWidth 8, (w >>> 8).setWidth 8])

/-- PUTS over a whole string: the nonzero words ws from a upward, wrapping, then a zero word, are written as their low
bytes in order in length + 1 steps, after which the CORE is RUNNING and nothing else has changed. -/
def Obligations.PutsWritesTheWholeString : Prop :=
  ∀ (ws : List Word) (s : State) (a : Word), s.runState = .stringOut .puts a → s.holdsString a ws →
    s.noAbortWithin (ws.length + 1) →
    Sys2Proof.core.run (ws.length + 1) s = .next { s.tickBy (ws.length + 1) with
      runState := .running
      output := s.output ++ ws.map fun w : Word => w.setWidth 8 }

/-- PUTSP over a whole string: each word's low byte and then its high byte if that is not zero, word by word, stopping
before the terminating zero word. -/
def Obligations.PutspWritesTheWholeString : Prop :=
  ∀ (ws : List Word) (s : State) (a : Word), s.runState = .stringOut .putsp a → s.holdsString a ws →
    s.noAbortWithin (ws.length + 1) →
    Sys2Proof.core.run (ws.length + 1) s = .next { s.tickBy (ws.length + 1) with
      runState := .running
      output := s.output ++ ws.flatMap fun w : Word =>
        if w.toNat < 256 then [w.setWidth 8] else [w.setWidth 8, (w >>> 8).setWidth 8] }

/-- With no zero word anywhere a string routine never ends: after any number of steps the CORE is still in STRING_OUT
(R147's hang, the spec's decision D15). -/
def Obligations.StringWithoutTerminatorNeverEnds : Prop :=
  ∀ (n : Nat) (s : State) (k : StringKind) (a : Word), s.runState = .stringOut k a →
    (∀ b, s.memReadRaw b ≠ 0) → s.noAbortWithin n →
    ∃ t, Sys2Proof.core.run n s = .next t ∧ t.runState = .stringOut k (a + BitVec.ofNat 16 n)

/-- HALT (R152): the notice (bytes open by the spec's decision D13, a free value: log entry 8), then HALTED, a normal end
(R196, R208) from which no step follows; R7 gets PC†; nothing else changes. HALTED is entered by no other step. -/
def Obligations.HaltWritesTheNoticeAndEnds : Prop :=
  (∀ s t : State, step s = .next t → t.runState = .halted →
    s.runState = .running ∧ ∃ x, decode (s.tick.memRead s.pc).1 = .halt x) ∧
  ∀ (x : BitVec 4) (s : State), ∃ t, exec (.halt x) s = .next t ∧ t.output = s.output ++ Config.haltNotice ∧
    t.runState = .halted ∧ t.endedNormally ∧ step t = .fault .halted ∧ t.reg .r7 = s.pc ∧ KeepsRegs s t [.r7] ∧
    t.cond = s.cond ∧ t.pc = s.pc ∧ KeepsMem s t [] ∧ KeepsInput s t ∧ KeepsHost s t

/-- An unknown vector (R153): R7 gets PC† first; then FAULTED with the code UNKNOWN_TRAP, the word and its address
under `fault` (the default), and nothing more under `nop` (the spec's decision D11). The three codes have the numbers 1, 2
and 3 (R181, the spec's decision D17). -/
def Obligations.UnknownVectorFollowsThePolicy : Prop :=
  (FaultCode.reservedOpcode.number = 1 ∧ FaultCode.rtiUnimplemented.number = 2 ∧ FaultCode.unknownTrap.number = 3) ∧
  State.reset.params.unknownTrapPolicy = .fault ∧
  ∀ (x : BitVec 4) (v : BitVec 8) (s : State), (v.toNat < 0x20 ∨ 0x25 < v.toNat) →
    ∃ t, exec (.trap x v) s = .next t ∧ t.reg .r7 = s.pc ∧ KeepsRegs s t [.r7] ∧ t.cond = s.cond ∧ t.pc = s.pc ∧
      KeepsMem s t [] ∧ t.output = s.output ∧ KeepsInput s t ∧ KeepsHost s t ∧
      (s.params.unknownTrapPolicy = .fault →
        t.runState = .faulted .unknownTrap (BitVec.ofNat 16 (0xF000 + x.toNat * 256 + v.toNat)) (s.pc - 1)) ∧
      (s.params.unknownTrapPolicy = .nop → t.runState = s.runState)

/-! ## Reserved opcodes -/

/-- RES (R170): a step on a word 1101…, whatever its low 12 bits, ends in FAULTED with the code RESERVED_OPCODE, the
word and its own address; PC is past it and no register, flag or memory word is written. -/
def Obligations.ReservedOpcodeIsAFatalFault : Prop :=
  (∀ w : Word, w &&& 0xF000 = 0xD000 → decode w = .res (field w 0 12)) ∧
  (∀ (x : BitVec 12) (s : State), ∃ t, exec (.res x) s = .next t ∧
    t.runState = .faulted .reservedOpcode (BitVec.ofNat 16 (0xD000 + x.toNat)) (s.pc - 1) ∧
    KeepsRegs s t [] ∧ t.cond = s.cond ∧ t.pc = s.pc ∧ KeepsMem s t [] ∧ t.output = s.output ∧ KeepsInput s t ∧
    KeepsHost s t)

/-- RTI (R171): a fatal fault with the code RTI_UNIMPLEMENTED in every state; nothing is popped or restored. -/
def Obligations.RtiIsAFatalFault : Prop :=
  (∀ w : Word, w &&& 0xF000 = 0x8000 → decode w = .rti (field w 0 12)) ∧
  (∀ (x : BitVec 12) (s : State), ∃ t, exec (.rti x) s = .next t ∧
    t.runState = .faulted .rtiUnimplemented (BitVec.ofNat 16 (0x8000 + x.toNat)) (s.pc - 1) ∧
    KeepsRegs s t [] ∧ t.cond = s.cond ∧ t.pc = s.pc ∧ KeepsMem s t [] ∧ t.output = s.output ∧ KeepsInput s t ∧
    KeepsHost s t)

/-! ## Images -/

/-- The image's words, each from two bytes with the first in bits 15:8, stand from the origin upward, as far as address
0xFFFF, and every other word is as before: nothing wraps to 0x0000 (R201, R202). Several images load in order, a later
one over an earlier one (R203). -/
def Obligations.ImagesLoadFromTheirOriginsUpward : Prop :=
  (∀ (first : List (Option (List Byte))) (last : List Byte) (m : Memory),
    loadImages (first ++ [some last]) m = (loadImages first m).bind (loadImage last)) ∧
  ∀ (origin : Word) (ws : List Word) (m : Memory),
    ∃ n, loadImage (((origin :: ws).map fun w : Word => [(w >>> 8).setWidth 8, w.setWidth 8]).flatten) m = some n ∧
      ∀ a : Word, n.read a =
        if h : origin.toNat ≤ a.toNat ∧ a.toNat - origin.toNat < ws.length then ws[a.toNat - origin.toNat]
        else m.read a

/-- A final odd byte of a stream with an origin is ignored, and a stream of fewer than two bytes is a failure (R205,
the spec's decision D19). -/
def Obligations.MalformedStreamsAsDecided : Prop :=
  (∀ (hi lo b : Byte) (ws : List Word) (m : Memory),
    let body := (ws.map fun w : Word => [(w >>> 8).setWidth 8, w.setWidth 8]).flatten
    loadImage (hi :: lo :: (body ++ [b])) m = loadImage (hi :: lo :: body) m) ∧
  (∀ (b : Byte) (m : Memory), loadImage [] m = none ∧ loadImage [b] m = none)

/-- No run starts without an image, or with one that cannot be opened or has no origin; then the end is abnormal
(R204). Otherwise the run starts at 0x3000 whatever the origins (R200, R206). -/
def Obligations.RunStartsOnlyIfEveryImageLoads : Prop :=
  (∀ streams, boot streams = none ↔ streams = [] ∨ ∃ st ∈ streams, ∀ bytes, st = some bytes → bytes.length < 2) ∧
  (∀ streams, boot streams = none →
    bootOutcome streams = some .abnormal ∧ bootStatus streams = some (Config.exitStatus .abnormal)) ∧
  (∀ streams t, boot streams = some t → t.runState = .running ∧ t.pc = 0x3000 ∧ t.cond = condZero ∧ t.Inv)
end

