-- ==== Sys2Proof/Laws/Encoding.lean ====
section
/-! SUPPORT. Each layout's fields read back, each word rebuilt from its fields, and a mask test turned into a test of
the opcode and flag fields. -/

namespace Sys2Proof

@[simp] theorem Reg.ofBits_bits (r : Reg) : Reg.ofBits r.bits = r := by cases r <;> rfl

@[simp] theorem Reg.bits_ofBits (b : BitVec 3) : (Reg.ofBits b).bits = b := by revert b; decide

@[simp] theorem Opcode.ofBits_bits (o : Opcode) : Opcode.ofBits o.bits = o := by cases o <;> rfl

@[simp] theorem Opcode.bits_ofBits (b : BitVec 4) : (Opcode.ofBits b).bits = b := by revert b; decide

theorem Opcode.ofBits_eq_iff (b : BitVec 4) (o : Opcode) : Opcode.ofBits b = o ↔ b = o.bits := by
  constructor
  · rintro rfl; simp
  · rintro rfl; simp

theorem Reg.ofBits_eq_iff (b : BitVec 3) (r : Reg) : Reg.ofBits b = r ↔ b = r.bits := by
  constructor
  · rintro rfl; simp
  · rintro rfl; simp

theorem field_getLsbD (w : Word) (lo len i : Nat) :
    (field w lo len).getLsbD i = (decide (i < len) && w.getLsbD (lo + i)) := by
  simp [field, BitVec.getLsbD_extractLsb']

/-! ### Bits of each layout -/

theorem word12_getLsbD (op : Opcode) (low : BitVec 12) (i : Nat) :
    (word12 op low).getLsbD i = if i < 12 then low.getLsbD i else op.bits.getLsbD (i - 12) := by
  unfold word12; rw [BitVec.getLsbD_append]

theorem word39_getLsbD (op : Opcode) (a : BitVec 3) (b : BitVec 9) (i : Nat) :
    (word39 op a b).getLsbD i =
      if i < 9 then b.getLsbD i else if i < 12 then a.getLsbD (i - 9) else op.bits.getLsbD (i - 12) := by
  unfold word39
  simp only [BitVec.getLsbD_append]
  split_ifs <;> first | rfl | omega

theorem word336_getLsbD (op : Opcode) (a b : BitVec 3) (c : BitVec 6) (i : Nat) :
    (word336 op a b c).getLsbD i =
      if i < 6 then c.getLsbD i else if i < 9 then b.getLsbD (i - 6)
      else if i < 12 then a.getLsbD (i - 9) else op.bits.getLsbD (i - 12) := by
  unfold word336
  simp only [BitVec.getLsbD_append]
  split_ifs <;> first | rfl | omega

theorem wordRegister_getLsbD (op : Opcode) (dr sr1 : Reg) (x : BitVec 2) (sr2 : Reg) (i : Nat) :
    (wordRegister op dr sr1 x sr2).getLsbD i =
      if i < 3 then sr2.bits.getLsbD i else if i < 5 then x.getLsbD (i - 3) else if i < 6 then false
      else if i < 9 then sr1.bits.getLsbD (i - 6) else if i < 12 then dr.bits.getLsbD (i - 9)
      else op.bits.getLsbD (i - 12) := by
  unfold wordRegister
  simp only [BitVec.getLsbD_append]
  split_ifs <;> first | rfl | omega | simp

theorem wordImmediate_getLsbD (op : Opcode) (dr sr1 : Reg) (imm5 : BitVec 5) (i : Nat) :
    (wordImmediate op dr sr1 imm5).getLsbD i =
      if i < 5 then imm5.getLsbD i else if i < 6 then true
      else if i < 9 then sr1.bits.getLsbD (i - 6) else if i < 12 then dr.bits.getLsbD (i - 9)
      else op.bits.getLsbD (i - 12) := by
  unfold wordImmediate
  simp only [BitVec.getLsbD_append]
  split_ifs <;> first | rfl | omega | (simp; omega)

theorem wordJsr_getLsbD (off : BitVec 11) (i : Nat) :
    (wordJsr off).getLsbD i =
      if i < 11 then off.getLsbD i else if i < 12 then true else Opcode.jsr.bits.getLsbD (i - 12) := by
  unfold wordJsr
  simp only [BitVec.getLsbD_append]
  split_ifs <;> first | rfl | omega | (simp; omega)

theorem wordJsrr_getLsbD (x : BitVec 2) (b : Reg) (y : BitVec 6) (i : Nat) :
    (wordJsrr x b y).getLsbD i =
      if i < 6 then y.getLsbD i else if i < 9 then b.bits.getLsbD (i - 6) else if i < 11 then x.getLsbD (i - 9)
      else if i < 12 then false else Opcode.jsr.bits.getLsbD (i - 12) := by
  unfold wordJsrr
  simp only [BitVec.getLsbD_append]
  split_ifs <;> first | rfl | omega | simp

theorem wordTrap_getLsbD (x : BitVec 4) (v : BitVec 8) (i : Nat) :
    (wordTrap x v).getLsbD i =
      if i < 8 then v.getLsbD i else if i < 12 then x.getLsbD (i - 8) else Opcode.trap.bits.getLsbD (i - 12) := by
  unfold wordTrap
  simp only [BitVec.getLsbD_append]
  split_ifs <;> first | rfl | omega

/-! ### Fields read back -/

theorem field_word12 (op : Opcode) (low : BitVec 12) :
    field (word12 op low) 12 4 = op.bits ∧ field (word12 op low) 0 12 = low := by
  refine ⟨?_, ?_⟩ <;> apply BitVec.eq_of_getLsbD_eq <;> intro i hi <;>
    simp only [field_getLsbD, word12_getLsbD] <;> interval_cases i <;> simp

theorem field_word39 (op : Opcode) (a : BitVec 3) (b : BitVec 9) :
    field (word39 op a b) 12 4 = op.bits ∧ field (word39 op a b) 9 3 = a ∧ field (word39 op a b) 0 9 = b := by
  refine ⟨?_, ?_, ?_⟩ <;> apply BitVec.eq_of_getLsbD_eq <;> intro i hi <;>
    simp only [field_getLsbD, word39_getLsbD] <;> interval_cases i <;> simp

theorem field_word336 (op : Opcode) (a b : BitVec 3) (c : BitVec 6) :
    field (word336 op a b c) 12 4 = op.bits ∧ field (word336 op a b c) 9 3 = a ∧
    field (word336 op a b c) 6 3 = b ∧ field (word336 op a b c) 0 6 = c := by
  refine ⟨?_, ?_, ?_, ?_⟩ <;> apply BitVec.eq_of_getLsbD_eq <;> intro i hi <;>
    simp only [field_getLsbD, word336_getLsbD] <;> interval_cases i <;> simp

theorem field_wordRegister (op : Opcode) (dr sr1 : Reg) (x : BitVec 2) (sr2 : Reg) :
    let w := wordRegister op dr sr1 x sr2
    field w 12 4 = op.bits ∧ field w 9 3 = dr.bits ∧ field w 6 3 = sr1.bits ∧ field w 5 1 = 0 ∧ field w 3 2 = x ∧
    field w 0 3 = sr2.bits := by
  refine ⟨?_, ?_, ?_, ?_, ?_, ?_⟩ <;> apply BitVec.eq_of_getLsbD_eq <;> intro i hi <;>
    simp only [field_getLsbD, wordRegister_getLsbD] <;> interval_cases i <;> simp

theorem field_wordImmediate (op : Opcode) (dr sr1 : Reg) (imm5 : BitVec 5) :
    let w := wordImmediate op dr sr1 imm5
    field w 12 4 = op.bits ∧ field w 9 3 = dr.bits ∧ field w 6 3 = sr1.bits ∧ field w 5 1 = 1 ∧ field w 0 5 = imm5 := by
  refine ⟨?_, ?_, ?_, ?_, ?_⟩ <;> apply BitVec.eq_of_getLsbD_eq <;> intro i hi <;>
    simp only [field_getLsbD, wordImmediate_getLsbD] <;> interval_cases i <;> simp

theorem field_wordJsr (off : BitVec 11) :
    field (wordJsr off) 12 4 = Opcode.jsr.bits ∧ field (wordJsr off) 11 1 = 1 ∧ field (wordJsr off) 0 11 = off := by
  refine ⟨?_, ?_, ?_⟩ <;> apply BitVec.eq_of_getLsbD_eq <;> intro i hi <;>
    simp only [field_getLsbD, wordJsr_getLsbD] <;> interval_cases i <;> simp

theorem field_wordJsrr (x : BitVec 2) (b : Reg) (y : BitVec 6) :
    let w := wordJsrr x b y
    field w 12 4 = Opcode.jsr.bits ∧ field w 11 1 = 0 ∧ field w 9 2 = x ∧ field w 6 3 = b.bits ∧ field w 0 6 = y := by
  refine ⟨?_, ?_, ?_, ?_, ?_⟩ <;> apply BitVec.eq_of_getLsbD_eq <;> intro i hi <;>
    simp only [field_getLsbD, wordJsrr_getLsbD] <;> interval_cases i <;> simp

theorem field_wordTrap (x : BitVec 4) (v : BitVec 8) :
    field (wordTrap x v) 12 4 = Opcode.trap.bits ∧ field (wordTrap x v) 8 4 = x ∧ field (wordTrap x v) 0 8 = v := by
  refine ⟨?_, ?_, ?_⟩ <;> apply BitVec.eq_of_getLsbD_eq <;> intro i hi <;>
    simp only [field_getLsbD, wordTrap_getLsbD] <;> interval_cases i <;> simp

/-! ### Words rebuilt from their fields -/

theorem word12_fields {w : Word} {op : Opcode} (h : field w 12 4 = op.bits) : word12 op (field w 0 12) = w := by
  apply BitVec.eq_of_getLsbD_eq
  intro i hi
  simp only [word12_getLsbD, ← h, field_getLsbD]
  interval_cases i <;> simp

theorem word39_fields {w : Word} {op : Opcode} (h : field w 12 4 = op.bits) :
    word39 op (field w 9 3) (field w 0 9) = w := by
  apply BitVec.eq_of_getLsbD_eq
  intro i hi
  simp only [word39_getLsbD, ← h, field_getLsbD]
  interval_cases i <;> simp

theorem word336_fields {w : Word} {op : Opcode} (h : field w 12 4 = op.bits) :
    word336 op (field w 9 3) (field w 6 3) (field w 0 6) = w := by
  apply BitVec.eq_of_getLsbD_eq
  intro i hi
  simp only [word336_getLsbD, ← h, field_getLsbD]
  interval_cases i <;> simp

theorem wordTrap_fields {w : Word} (h : field w 12 4 = Opcode.trap.bits) :
    wordTrap (field w 8 4) (field w 0 8) = w := by
  apply BitVec.eq_of_getLsbD_eq
  intro i hi
  simp only [wordTrap_getLsbD, ← h, field_getLsbD]
  interval_cases i <;> simp

theorem bit_of_field_one {w : Word} {k : Nat} : field w k 1 = 1 ↔ w.getLsbD k = true := by
  constructor
  · intro h
    have := field_getLsbD w k 1 0
    rw [h] at this
    simpa using this.symm
  · intro h
    apply BitVec.eq_of_getLsbD_eq
    intro i hi
    obtain rfl : i = 0 := by omega
    simp [field_getLsbD, h]

theorem bit_of_field_zero {w : Word} {k : Nat} : field w k 1 ≠ 1 ↔ w.getLsbD k = false := by
  rw [ne_eq, bit_of_field_one, Bool.not_eq_true]

theorem wordJsr_fields {w : Word} (h : field w 12 4 = Opcode.jsr.bits) (hf : field w 11 1 = 1) :
    wordJsr (field w 0 11) = w := by
  have hb := bit_of_field_one.1 hf
  apply BitVec.eq_of_getLsbD_eq
  intro i hi
  simp only [wordJsr_getLsbD, ← h, field_getLsbD]
  interval_cases i <;> simp
  simpa using hb

theorem wordJsrr_fields {w : Word} (h : field w 12 4 = Opcode.jsr.bits) (hf : field w 11 1 ≠ 1) :
    wordJsrr (field w 9 2) (regField w 6) (field w 0 6) = w := by
  have hb := bit_of_field_zero.1 hf
  apply BitVec.eq_of_getLsbD_eq
  intro i hi
  simp only [wordJsrr_getLsbD, ← h, field_getLsbD, regField, Reg.bits_ofBits]
  interval_cases i <;> simp
  simpa using hb

theorem wordRegister_fields {w : Word} {op : Opcode} (h : field w 12 4 = op.bits) (hf : field w 5 1 ≠ 1) :
    wordRegister op (regField w 9) (regField w 6) (field w 3 2) (regField w 0) = w := by
  have hb := bit_of_field_zero.1 hf
  apply BitVec.eq_of_getLsbD_eq
  intro i hi
  simp only [wordRegister_getLsbD, ← h, field_getLsbD, regField, Reg.bits_ofBits]
  interval_cases i <;> simp
  simpa using hb

theorem wordImmediate_fields {w : Word} {op : Opcode} (h : field w 12 4 = op.bits) (hf : field w 5 1 = 1) :
    wordImmediate op (regField w 9) (regField w 6) (field w 0 5) = w := by
  have hb := bit_of_field_one.1 hf
  apply BitVec.eq_of_getLsbD_eq
  intro i hi
  simp only [wordImmediate_getLsbD, ← h, field_getLsbD, regField, Reg.bits_ofBits]
  interval_cases i <;> simp
  simpa using hb

/-! ### Masks -/

/-- A mask test is a test of the bits under the mask. -/
theorem and_eq_iff_bits (w m v : Word) :
    w &&& m = v ↔ ∀ i, i < 16 → (w.getLsbD i && m.getLsbD i) = v.getLsbD i := by
  constructor
  · rintro rfl i -
    simp
  · intro h
    apply BitVec.eq_of_getLsbD_eq
    intro i hi
    simpa using h i hi

theorem field_eq_iff_bits (w : Word) (lo len : Nat) (v : BitVec len) :
    field w lo len = v ↔ ∀ i, i < len → w.getLsbD (lo + i) = v.getLsbD i := by
  constructor
  · rintro rfl i hi
    rw [field_getLsbD, decide_eq_true hi, Bool.true_and]
  · intro h
    apply BitVec.eq_of_getLsbD_eq
    intro i hi
    rw [field_getLsbD, decide_eq_true hi, Bool.true_and, h i hi]

/-- The opcode test of the rows whose mask is 0xF000 (R66). -/
theorem mask_F000_iff (w : Word) (o : Opcode) :
    w &&& 0xF000 = o.bits ++ 0#12 ↔ Opcode.ofBits (field w 12 4) = o := by
  rw [Opcode.ofBits_eq_iff, and_eq_iff_bits, field_eq_iff_bits]
  constructor
  · intro h i hi
    have := h (12 + i) (by omega)
    rw [BitVec.getLsbD_append] at this
    interval_cases i <;> simpa using this
  · intro h i hi
    rw [BitVec.getLsbD_append]
    have h0 := h 0 (by omega)
    have h1 := h 1 (by omega)
    have h2 := h 2 (by omega)
    have h3 := h 3 (by omega)
    interval_cases i <;> simp_all

/-- A mask that tests the opcode and one flag bit `k` below it tests each (R66's ADD, AND, JSR and JSRR rows). -/
theorem mask_flag_iff (w : Word) (o : Opcode) (k : Nat) (hk : k < 12) (b : Bool) :
    w &&& (0xF000 ||| BitVec.twoPow 16 k) = (o.bits ++ 0#12 : Word) ||| (if b then BitVec.twoPow 16 k else 0) ↔
      Opcode.ofBits (field w 12 4) = o ∧ w.getLsbD k = b := by
  rw [← mask_F000_iff, and_eq_iff_bits, and_eq_iff_bits]
  have hlow : ∀ i, i < 12 → (o.bits ++ 0#12 : Word).getLsbD i = false := by
    intro i hi; rw [BitVec.getLsbD_append]; simp [hi]
  have hmask : ∀ i, i < 12 → (0xF000 : Word).getLsbD i = false := by
    intro i hi; interval_cases i <;> rfl
  constructor
  · intro h
    refine ⟨fun i hi => ?_, ?_⟩
    · by_cases hik : i = k
      · subst hik; rw [hlow i hk, hmask i hk, Bool.and_false]
      · have := h i hi
        cases b <;> simpa [BitVec.getLsbD_or, BitVec.getLsbD_twoPow, hik, Ne.symm hik] using this
    · have := h k (by omega)
      have hk16 : k < 16 := by omega
      rw [BitVec.getLsbD_or, BitVec.getLsbD_or, hlow k hk, hmask k hk] at this
      cases b <;> simpa [BitVec.getLsbD_twoPow, hk16] using this
  · rintro ⟨h, hb⟩ i hi
    by_cases hik : i = k
    · subst hik
      rw [BitVec.getLsbD_or, BitVec.getLsbD_or, hlow i hk, hmask i hk, hb]
      cases b <;> simp [hi]
    · have := h i hi
      cases b <;> simpa [BitVec.getLsbD_or, BitVec.getLsbD_twoPow, hik, Ne.symm hik] using this

end Sys2Proof
end

