-- ==== Sys2Proof/Laws/State.lean ====
section
/-! SUPPORT. One lemma per field per update of the state, so that no proof unfolds a record update, and the laws of the
register file. -/

namespace Sys2Proof.Machine

/-! ### setReg -/

@[simp] theorem State.setReg_regs (s : State) (r : Reg) (v : Word) : (s.setReg r v).regs = s.regs.set r v := rfl
@[simp] theorem State.setReg_pc (s : State) (r : Reg) (v : Word) : (s.setReg r v).pc = s.pc := rfl
@[simp] theorem State.setReg_cond (s : State) (r : Reg) (v : Word) : (s.setReg r v).cond = s.cond := rfl
@[simp] theorem State.setReg_runState (s : State) (r : Reg) (v : Word) : (s.setReg r v).runState = s.runState := rfl
@[simp] theorem State.setReg_mem (s : State) (r : Reg) (v : Word) : (s.setReg r v).mem = s.mem := rfl
@[simp] theorem State.setReg_output (s : State) (r : Reg) (v : Word) : (s.setReg r v).output = s.output := rfl
@[simp] theorem State.setReg_input (s : State) (r : Reg) (v : Word) : (s.setReg r v).input = s.input := rfl
@[simp] theorem State.setReg_inputDraws (s : State) (r : Reg) (v : Word) : (s.setReg r v).inputDraws = s.inputDraws := rfl
@[simp] theorem State.setReg_abortIn (s : State) (r : Reg) (v : Word) : (s.setReg r v).abortIn = s.abortIn := rfl
@[simp] theorem State.setReg_params (s : State) (r : Reg) (v : Word) : (s.setReg r v).params = s.params := rfl
@[simp] theorem State.setReg_memReadRaw (s : State) (r : Reg) (v : Word) (b : Word) : (s.setReg r v).memReadRaw b = s.memReadRaw b := rfl

/-! ### setPc -/

@[simp] theorem State.setPc_regs (s : State) (v : Word) : (s.setPc v).regs = s.regs := rfl
@[simp] theorem State.setPc_pc (s : State) (v : Word) : (s.setPc v).pc = v := rfl
@[simp] theorem State.setPc_cond (s : State) (v : Word) : (s.setPc v).cond = s.cond := rfl
@[simp] theorem State.setPc_runState (s : State) (v : Word) : (s.setPc v).runState = s.runState := rfl
@[simp] theorem State.setPc_mem (s : State) (v : Word) : (s.setPc v).mem = s.mem := rfl
@[simp] theorem State.setPc_output (s : State) (v : Word) : (s.setPc v).output = s.output := rfl
@[simp] theorem State.setPc_input (s : State) (v : Word) : (s.setPc v).input = s.input := rfl
@[simp] theorem State.setPc_inputDraws (s : State) (v : Word) : (s.setPc v).inputDraws = s.inputDraws := rfl
@[simp] theorem State.setPc_abortIn (s : State) (v : Word) : (s.setPc v).abortIn = s.abortIn := rfl
@[simp] theorem State.setPc_params (s : State) (v : Word) : (s.setPc v).params = s.params := rfl
@[simp] theorem State.setPc_reg (s : State) (v : Word) (q : Reg) : (s.setPc v).reg q = s.reg q := rfl
@[simp] theorem State.setPc_memReadRaw (s : State) (v : Word) (b : Word) : (s.setPc v).memReadRaw b = s.memReadRaw b := rfl

/-! ### setCond -/

@[simp] theorem State.setCond_regs (s : State) (c : Cond) : (s.setCond c).regs = s.regs := rfl
@[simp] theorem State.setCond_pc (s : State) (c : Cond) : (s.setCond c).pc = s.pc := rfl
@[simp] theorem State.setCond_cond (s : State) (c : Cond) : (s.setCond c).cond = c := rfl
@[simp] theorem State.setCond_runState (s : State) (c : Cond) : (s.setCond c).runState = s.runState := rfl
@[simp] theorem State.setCond_mem (s : State) (c : Cond) : (s.setCond c).mem = s.mem := rfl
@[simp] theorem State.setCond_output (s : State) (c : Cond) : (s.setCond c).output = s.output := rfl
@[simp] theorem State.setCond_input (s : State) (c : Cond) : (s.setCond c).input = s.input := rfl
@[simp] theorem State.setCond_inputDraws (s : State) (c : Cond) : (s.setCond c).inputDraws = s.inputDraws := rfl
@[simp] theorem State.setCond_abortIn (s : State) (c : Cond) : (s.setCond c).abortIn = s.abortIn := rfl
@[simp] theorem State.setCond_params (s : State) (c : Cond) : (s.setCond c).params = s.params := rfl
@[simp] theorem State.setCond_reg (s : State) (c : Cond) (q : Reg) : (s.setCond c).reg q = s.reg q := rfl
@[simp] theorem State.setCond_memReadRaw (s : State) (c : Cond) (b : Word) : (s.setCond c).memReadRaw b = s.memReadRaw b := rfl

/-! ### setRunState -/

@[simp] theorem State.setRunState_regs (s : State) (r : RunState) : (s.setRunState r).regs = s.regs := rfl
@[simp] theorem State.setRunState_pc (s : State) (r : RunState) : (s.setRunState r).pc = s.pc := rfl
@[simp] theorem State.setRunState_cond (s : State) (r : RunState) : (s.setRunState r).cond = s.cond := rfl
@[simp] theorem State.setRunState_runState (s : State) (r : RunState) : (s.setRunState r).runState = r := rfl
@[simp] theorem State.setRunState_mem (s : State) (r : RunState) : (s.setRunState r).mem = s.mem := rfl
@[simp] theorem State.setRunState_output (s : State) (r : RunState) : (s.setRunState r).output = s.output := rfl
@[simp] theorem State.setRunState_input (s : State) (r : RunState) : (s.setRunState r).input = s.input := rfl
@[simp] theorem State.setRunState_inputDraws (s : State) (r : RunState) : (s.setRunState r).inputDraws = s.inputDraws := rfl
@[simp] theorem State.setRunState_abortIn (s : State) (r : RunState) : (s.setRunState r).abortIn = s.abortIn := rfl
@[simp] theorem State.setRunState_params (s : State) (r : RunState) : (s.setRunState r).params = s.params := rfl
@[simp] theorem State.setRunState_reg (s : State) (r : RunState) (q : Reg) : (s.setRunState r).reg q = s.reg q := rfl
@[simp] theorem State.setRunState_memReadRaw (s : State) (r : RunState) (b : Word) : (s.setRunState r).memReadRaw b = s.memReadRaw b := rfl

/-! ### memWrite -/

@[simp] theorem State.memWrite_regs (s : State) (a v : Word) : (s.memWrite a v).regs = s.regs := rfl
@[simp] theorem State.memWrite_pc (s : State) (a v : Word) : (s.memWrite a v).pc = s.pc := rfl
@[simp] theorem State.memWrite_cond (s : State) (a v : Word) : (s.memWrite a v).cond = s.cond := rfl
@[simp] theorem State.memWrite_runState (s : State) (a v : Word) : (s.memWrite a v).runState = s.runState := rfl
@[simp] theorem State.memWrite_mem (s : State) (a v : Word) : (s.memWrite a v).mem = s.mem.write a v := rfl
@[simp] theorem State.memWrite_output (s : State) (a v : Word) : (s.memWrite a v).output = s.output := rfl
@[simp] theorem State.memWrite_input (s : State) (a v : Word) : (s.memWrite a v).input = s.input := rfl
@[simp] theorem State.memWrite_inputDraws (s : State) (a v : Word) : (s.memWrite a v).inputDraws = s.inputDraws := rfl
@[simp] theorem State.memWrite_abortIn (s : State) (a v : Word) : (s.memWrite a v).abortIn = s.abortIn := rfl
@[simp] theorem State.memWrite_params (s : State) (a v : Word) : (s.memWrite a v).params = s.params := rfl
@[simp] theorem State.memWrite_reg (s : State) (a v : Word) (q : Reg) : (s.memWrite a v).reg q = s.reg q := rfl

/-! ### emit -/

@[simp] theorem State.emit_regs (s : State) (bs : List Byte) : (s.emit bs).regs = s.regs := rfl
@[simp] theorem State.emit_pc (s : State) (bs : List Byte) : (s.emit bs).pc = s.pc := rfl
@[simp] theorem State.emit_cond (s : State) (bs : List Byte) : (s.emit bs).cond = s.cond := rfl
@[simp] theorem State.emit_runState (s : State) (bs : List Byte) : (s.emit bs).runState = s.runState := rfl
@[simp] theorem State.emit_mem (s : State) (bs : List Byte) : (s.emit bs).mem = s.mem := rfl
@[simp] theorem State.emit_output (s : State) (bs : List Byte) : (s.emit bs).output = s.output ++ bs := rfl
@[simp] theorem State.emit_input (s : State) (bs : List Byte) : (s.emit bs).input = s.input := rfl
@[simp] theorem State.emit_inputDraws (s : State) (bs : List Byte) : (s.emit bs).inputDraws = s.inputDraws := rfl
@[simp] theorem State.emit_abortIn (s : State) (bs : List Byte) : (s.emit bs).abortIn = s.abortIn := rfl
@[simp] theorem State.emit_params (s : State) (bs : List Byte) : (s.emit bs).params = s.params := rfl
@[simp] theorem State.emit_reg (s : State) (bs : List Byte) (q : Reg) : (s.emit bs).reg q = s.reg q := rfl
@[simp] theorem State.emit_memReadRaw (s : State) (bs : List Byte) (b : Word) : (s.emit bs).memReadRaw b = s.memReadRaw b := rfl

/-! ### tick -/

@[simp] theorem State.tick_regs (s : State) : s.tick.regs = s.regs := rfl
@[simp] theorem State.tick_pc (s : State) : s.tick.pc = s.pc := rfl
@[simp] theorem State.tick_cond (s : State) : s.tick.cond = s.cond := rfl
@[simp] theorem State.tick_runState (s : State) : s.tick.runState = s.runState := rfl
@[simp] theorem State.tick_mem (s : State) : s.tick.mem = s.mem := rfl
@[simp] theorem State.tick_output (s : State) : s.tick.output = s.output := rfl
@[simp] theorem State.tick_input (s : State) : s.tick.input = s.input := rfl
@[simp] theorem State.tick_inputDraws (s : State) : s.tick.inputDraws = s.inputDraws := rfl
@[simp] theorem State.tick_abortIn (s : State) : s.tick.abortIn = s.abortIn.map (· - 1) := rfl
@[simp] theorem State.tick_params (s : State) : s.tick.params = s.params := rfl
@[simp] theorem State.tick_reg (s : State) (q : Reg) : s.tick.reg q = s.reg q := rfl
@[simp] theorem State.tick_memReadRaw (s : State) (b : Word) : s.tick.memReadRaw b = s.memReadRaw b := rfl

/-! ### Registers -/

theorem RegFile.get_set (f : RegFile) (r q : Reg) (v : Word) :
    (f.set r v).get q = if q = r then v else f.get q := by
  cases r <;> cases q <;> rfl

theorem State.setReg_reg (s : State) (r q : Reg) (v : Word) :
    (s.setReg r v).reg q = if q = r then v else s.reg q :=
  s.regs.get_set r q v

@[simp] theorem State.setReg_reg_self (s : State) (r : Reg) (v : Word) : (s.setReg r v).reg r = v := by
  simp [State.setReg_reg]

theorem State.setReg_reg_of_ne (s : State) (v : Word) {r q : Reg} (h : q ≠ r) :
    (s.setReg r v).reg q = s.reg q := by
  simp [State.setReg_reg, h]

/-- Writing a register leaves every other one: the shape the frames ask for. -/
theorem keepsRegs_setReg (s : State) (r : Reg) (v : Word) : KeepsRegs s (s.setReg r v) [r] := by
  intro q hq
  exact s.setReg_reg_of_ne v (by simpa using hq)

theorem keepsRegs_of_regs_eq {s t : State} (h : t.regs = s.regs) (l : List Reg) : KeepsRegs s t l := by
  intro r _
  simp [State.reg, h]

theorem keepsMem_of_mem_eq {s t : State} (h : t.mem = s.mem) (l : List Word) : KeepsMem s t l := by
  intro a _
  simp [State.memReadRaw, h]

end Sys2Proof.Machine
end

