-- ==== Sys2Proof/Laws/Memory.lean ====
section
/-! SUPPORT. The laws of the word array: what a write changes, that it keeps the canonical form, and that the
canonical form is unique. -/

namespace Sys2Proof.Machine

namespace Memory

theorem lookup_erase (a b : Nat) (m : Memory) :
    lookup b (erase a m) = if b = a then unlisted else lookup b m := by
  induction m with
  | nil => simp [erase, lookup]
  | cons e rest ih =>
    obtain ⟨c, w⟩ := e
    by_cases hac : a = c <;> by_cases hbc : b = c <;> simp_all [erase, lookup]
    omega

theorem lookup_insert (a b : Nat) (v : Word) (m : Memory)
    (habs : ∀ w, (a, w) ∉ m) : lookup b (insert a v m) = if b = a then v else lookup b m := by
  induction m with
  | nil => simp [insert, lookup]
  | cons e rest ih =>
    obtain ⟨c, w⟩ := e
    have hac : a ≠ c := fun h => habs w (by simp [h])
    have ih := ih fun w' hw => habs w' (List.mem_cons_of_mem _ hw)
    unfold insert
    split
    · simp [lookup]
    · by_cases hbc : b = c
      · have : b ≠ a := by omega
        simp [lookup, hbc, Ne.symm hac]
      · simp [lookup, hbc, ih]

theorem not_mem_erase (a : Nat) (m : Memory) (w : Word) : (a, w) ∉ erase a m := by
  induction m with
  | nil => simp [erase]
  | cons e rest ih =>
    obtain ⟨c, x⟩ := e
    by_cases hac : a = c <;> simp_all [erase]

theorem lookup_update (a b : Nat) (v : Word) (m : Memory) :
    lookup b (update a v m) = if b = a then v else lookup b m := by
  unfold update
  split
  next h => rw [lookup_erase]; simp [h]
  next h =>
    rw [lookup_insert a b v _ (not_mem_erase a m), lookup_erase]
    split <;> rfl

/-- A write changes exactly the word at its address (R43). -/
theorem read_write (m : Memory) (a b v : Word) :
    (m.write a v).read b = if b = a then v else m.read b := by
  simp only [read, write, lookup_update, BitVec.toNat_inj]

theorem wfFrom_mono {lo lo' : Nat} (h : lo' ≤ lo) : ∀ {m : Memory}, wfFrom lo m = true → wfFrom lo' m = true
  | [], _ => rfl
  | (b, w) :: rest, hm => by
    simp only [wfFrom, Bool.and_eq_true, decide_eq_true_eq] at hm ⊢
    exact ⟨⟨⟨by omega, hm.1.1.2⟩, hm.1.2⟩, hm.2⟩

theorem wfFrom_erase (a : Nat) : ∀ {lo : Nat} {m : Memory}, wfFrom lo m = true → wfFrom lo (erase a m) = true
  | _, [], _ => rfl
  | lo, (b, w) :: rest, hm => by
    simp only [wfFrom, Bool.and_eq_true, decide_eq_true_eq] at hm
    unfold erase
    split
    · exact wfFrom_mono (by omega) (wfFrom_erase a hm.2)
    · simp only [wfFrom, Bool.and_eq_true, decide_eq_true_eq]
      exact ⟨hm.1, wfFrom_erase a hm.2⟩

theorem wfFrom_insert {a : Nat} {v : Word} (ha : a < 65536) (hv : v ≠ unlisted) :
    ∀ {lo : Nat} {m : Memory}, lo ≤ a → (∀ w, (a, w) ∉ m) → wfFrom lo m = true → wfFrom lo (insert a v m) = true
  | lo, [], hlo, _, _ => by simp [insert, wfFrom, hlo, ha, hv]
  | lo, (b, w) :: rest, hlo, habs, hm => by
    have hab : a ≠ b := fun h => habs w (by simp [h])
    simp only [wfFrom, Bool.and_eq_true, decide_eq_true_eq] at hm
    unfold insert
    split
    next hlt =>
      simp only [wfFrom, Bool.and_eq_true, decide_eq_true_eq, bne_iff_ne, ne_eq]
      exact ⟨⟨⟨hlo, ha⟩, hv⟩, ⟨⟨by omega, hm.1.1.2⟩, by simpa using hm.1.2⟩, hm.2⟩
    next hge =>
      simp only [wfFrom, Bool.and_eq_true, decide_eq_true_eq]
      exact ⟨hm.1, wfFrom_insert ha hv (by omega) (fun w' hw => habs w' (List.mem_cons_of_mem _ hw)) hm.2⟩

/-- Every memory operation keeps the canonical form: the one operation that changes memory is `write`. -/
theorem wf_write {m : Memory} (h : m.wf = true) (a v : Word) : (m.write a v).wf = true := by
  unfold write update wf at *
  split
  · exact wfFrom_erase _ h
  next hv => exact wfFrom_insert a.isLt hv (Nat.zero_le _) (not_mem_erase _ _) (wfFrom_erase _ h)

theorem lookup_of_wfFrom {a lo : Nat} (ha : a < lo) : ∀ {m : Memory}, wfFrom lo m = true → lookup a m = unlisted
  | [], _ => rfl
  | (b, w) :: rest, hm => by
    simp only [wfFrom, Bool.and_eq_true, decide_eq_true_eq] at hm
    have : a ≠ b := by omega
    simp only [lookup, this, if_false]
    exact lookup_of_wfFrom (lo := b + 1) (by omega) hm.2

end Memory

/-- What a write leaves a raw read (R43, R47). -/
theorem State.memReadRaw_memWrite (s : State) (a b v : Word) :
    (s.memWrite a v).memReadRaw b = if b = a then v else s.memReadRaw b :=
  s.mem.read_write a b v

@[simp] theorem State.memReadRaw_memWrite_self (s : State) (a v : Word) : (s.memWrite a v).memReadRaw a = v := by
  simp [State.memReadRaw_memWrite]

theorem keepsMem_memWrite (s : State) (a v : Word) : KeepsMem s (s.memWrite a v) [a] := by
  intro b hb
  rw [State.memReadRaw_memWrite, if_neg (by simpa using hb)]

end Sys2Proof.Machine
end

