-- ==== Sys2Proof/Laws/Ops.lean ====
section
/-! SUPPORT. What each shared operation can do, said once: the device draws, the keyboard poll, the polling read, the
fetch, the composite register writes, and the trap dispatcher's steps. -/

namespace Sys2Proof.Machine

/-! ## The device -/

/-- A poll changes the device's answers and nothing else. -/
theorem State.pollDevice_eq (s : State) :
    ∃ i d, s.pollDevice.2 = { s with input := i, inputDraws := d } := by
  unfold State.pollDevice
  split
  · exact ⟨_, s.inputDraws, rfl⟩
  · exact ⟨s.input, _, rfl⟩

/-- A delivered character changes the device's answers and nothing else. -/
theorem State.awaitDevice_eq {s u : State} {c : Word} (h : s.awaitDevice = some (c, u)) :
    ∃ i d, u = { s with input := i, inputDraws := d } := by
  unfold State.awaitDevice at h
  split at h
  · simp only [Option.some.injEq, Prod.mk.injEq] at h
    exact ⟨_, s.inputDraws, h.2.symm⟩
  · split at h
    · simp only [Option.some.injEq, Prod.mk.injEq] at h
      exact ⟨_, _, h.2.symm⟩
    · cases h

theorem firstCharacter_isSome_iff (l : List (Option Word)) :
    (firstCharacter l).isSome = true ↔ ∃ c, some c ∈ l := by
  induction l with
  | nil => simp [firstCharacter]
  | cons a l ih => cases a <;> simp_all [firstCharacter]

theorem firstCharacter_replicate_none (n : Nat) (l : List (Option Word)) :
    firstCharacter (List.replicate n none ++ l) = firstCharacter l := by
  induction n with
  | zero => rfl
  | succ n ih => simpa [List.replicate_succ, firstCharacter] using ih

/-! ## The keyboard poll and the polling read -/

/-- The two things a keyboard poll can do (R46). -/
theorem State.keyboardPoll_cases (s : State) :
    (∃ c, s.pollDevice.1 = some c ∧
      s.keyboardPoll = (s.pollDevice.2.memWrite s.params.kbsrAddr 0x8000).memWrite s.params.kbdrAddr c) ∨
    (s.pollDevice.1 = none ∧ s.keyboardPoll = s.pollDevice.2.memWrite s.params.kbsrAddr 0x0000) := by
  unfold State.keyboardPoll
  rcases h : s.pollDevice with ⟨_ | c, u⟩
  · exact .inr ⟨rfl, rfl⟩
  · exact .inl ⟨c, rfl, rfl⟩

/-- A keyboard poll changes the memory and the device's answers and nothing else. -/
theorem State.keyboardPoll_eq (s : State) :
    ∃ m i d, s.keyboardPoll = { s with mem := m, input := i, inputDraws := d } ∧
      (s.mem.wf = true → m.wf = true) := by
  obtain ⟨i, d, hp⟩ := s.pollDevice_eq
  rcases s.keyboardPoll_cases with ⟨c, -, h⟩ | ⟨-, h⟩
  · exact ⟨(s.mem.write s.params.kbsrAddr 0x8000).write s.params.kbdrAddr c, i, d, by rw [h, hp]; rfl,
      fun hm => Memory.wf_write (Memory.wf_write hm _ _) _ _⟩
  · exact ⟨s.mem.write s.params.kbsrAddr 0x0000, i, d, by rw [h, hp]; rfl, fun hm => Memory.wf_write hm _ _⟩

/-- A polling read changes the memory and the device's answers and nothing else. -/
theorem State.afterRead_eq (s : State) (a : Word) :
    ∃ m i d, s.afterRead a = { s with mem := m, input := i, inputDraws := d } ∧
      (s.mem.wf = true → m.wf = true) := by
  unfold State.afterRead
  split
  · exact s.keyboardPoll_eq
  · exact ⟨s.mem, s.input, s.inputDraws, rfl, id⟩

@[simp] theorem State.afterRead_regs (s : State) (a : Word) : (s.afterRead a).regs = s.regs := by
  obtain ⟨_, _, _, h, -⟩ := s.afterRead_eq a; rw [h]
@[simp] theorem State.afterRead_pc (s : State) (a : Word) : (s.afterRead a).pc = s.pc := by
  obtain ⟨_, _, _, h, -⟩ := s.afterRead_eq a; rw [h]
@[simp] theorem State.afterRead_cond (s : State) (a : Word) : (s.afterRead a).cond = s.cond := by
  obtain ⟨_, _, _, h, -⟩ := s.afterRead_eq a; rw [h]
@[simp] theorem State.afterRead_runState (s : State) (a : Word) : (s.afterRead a).runState = s.runState := by
  obtain ⟨_, _, _, h, -⟩ := s.afterRead_eq a; rw [h]
@[simp] theorem State.afterRead_output (s : State) (a : Word) : (s.afterRead a).output = s.output := by
  obtain ⟨_, _, _, h, -⟩ := s.afterRead_eq a; rw [h]
@[simp] theorem State.afterRead_abortIn (s : State) (a : Word) : (s.afterRead a).abortIn = s.abortIn := by
  obtain ⟨_, _, _, h, -⟩ := s.afterRead_eq a; rw [h]
@[simp] theorem State.afterRead_params (s : State) (a : Word) : (s.afterRead a).params = s.params := by
  obtain ⟨_, _, _, h, -⟩ := s.afterRead_eq a; rw [h]
@[simp] theorem State.afterRead_reg (s : State) (a : Word) (r : Reg) : (s.afterRead a).reg r = s.reg r := by
  simp [State.reg]

theorem State.afterRead_mem_wf {s : State} (a : Word) (h : s.mem.wf = true) : (s.afterRead a).mem.wf = true := by
  obtain ⟨m, _, _, he, hm⟩ := s.afterRead_eq a
  rw [he]; exact hm h

/-- Away from the keyboard status a read is pure (R44). -/
theorem State.afterRead_of_ne {s : State} {a : Word} (h : a ≠ s.params.kbsrAddr) : s.afterRead a = s := by
  simp [State.afterRead, h]

theorem State.memRead_of_ne {s : State} {a : Word} (h : a ≠ s.params.kbsrAddr) :
    s.memRead a = (s.memReadRaw a, s) := by
  simp [State.memRead, State.afterRead_of_ne h]

@[simp] theorem State.memRead_snd (s : State) (a : Word) : (s.memRead a).2 = s.afterRead a := rfl
@[simp] theorem State.memRead_fst (s : State) (a : Word) : (s.memRead a).1 = (s.afterRead a).memReadRaw a := rfl

/-! ## Fetch -/

@[simp] theorem fetch_fst (s : State) : (fetch s).1 = (s.memRead s.pc).1 := rfl
theorem fetch_snd (s : State) : (fetch s).2 = (s.afterRead s.pc).setPc (s.pc + 1) := rfl

/-! ## Composite writes -/

@[simp] theorem setRegCC_reg_self (s : State) (r : Reg) (v : Word) : (s.setRegCC r v).reg r = v := by
  simp [State.setRegCC]
@[simp] theorem setRegCC_cond (s : State) (r : Reg) (v : Word) : (s.setRegCC r v).cond = setcc v := rfl
@[simp] theorem setRegCC_pc (s : State) (r : Reg) (v : Word) : (s.setRegCC r v).pc = s.pc := rfl
@[simp] theorem setRegCC_mem (s : State) (r : Reg) (v : Word) : (s.setRegCC r v).mem = s.mem := rfl
@[simp] theorem setRegCC_runState (s : State) (r : Reg) (v : Word) : (s.setRegCC r v).runState = s.runState := rfl
@[simp] theorem setRegCC_output (s : State) (r : Reg) (v : Word) : (s.setRegCC r v).output = s.output := rfl
@[simp] theorem setRegCC_input (s : State) (r : Reg) (v : Word) : (s.setRegCC r v).input = s.input := rfl
@[simp] theorem setRegCC_inputDraws (s : State) (r : Reg) (v : Word) : (s.setRegCC r v).inputDraws = s.inputDraws := rfl
@[simp] theorem setRegCC_abortIn (s : State) (r : Reg) (v : Word) : (s.setRegCC r v).abortIn = s.abortIn := rfl
@[simp] theorem setRegCC_params (s : State) (r : Reg) (v : Word) : (s.setRegCC r v).params = s.params := rfl
@[simp] theorem setRegCC_memReadRaw (s : State) (r : Reg) (v a : Word) :
    (s.setRegCC r v).memReadRaw a = s.memReadRaw a := rfl

theorem keepsRegs_setRegCC (s : State) (r : Reg) (v : Word) : KeepsRegs s (s.setRegCC r v) [r] :=
  keepsRegs_setReg s r v

/-- `setcc` yields only the three legal values (R24). -/
theorem condOneHot_setcc (v : Word) : condOneHot (setcc v) = true := by
  unfold setcc
  split
  · rfl
  · split <;> rfl

theorem loadFrom_eq (ea : Word) (dr : Reg) (s : State) :
    loadFrom ea dr s = (s.afterRead ea).setRegCC dr ((s.afterRead ea).memReadRaw ea) := rfl

theorem callThrough_eq (order : LinkOrder) (b : Reg) (s : State) :
    ∃ v, callThrough order b s = s.link.setPc v := by
  cases order <;> exact ⟨_, rfl⟩

/-! ## The trap dispatcher -/

/-- Every routine's dispatch changes the run state and appends to the output, and nothing else. -/
theorem trapDispatch_eq (v : BitVec 8) (ir : Word) (s : State) :
    ∃ bs r, trapDispatch v ir s = (s.emit bs).setRunState r := by
  have hnil : ∀ r, s.setRunState r = (s.emit []).setRunState r := by intro r; simp [State.setRunState, State.emit]
  unfold trapDispatch
  split; exact ⟨[], _, hnil _⟩
  split; exact ⟨_, s.runState, rfl⟩
  split; exact ⟨[], _, hnil _⟩
  split; exact ⟨_, _, rfl⟩
  split; exact ⟨[], _, hnil _⟩
  split; exact ⟨_, _, rfl⟩
  cases s.params.unknownTrapPolicy
  · exact ⟨[], _, hnil _⟩
  · exact ⟨[], s.runState, by simp [unknownTrap, State.setRunState, State.emit]⟩

/-- A waiting step that goes on completes with a delivered character (R144, R149). -/
theorem waitStep_cases {k : InputKind} {s t : State} (h : waitStep k s = .next t) :
    ∃ c u, s.awaitDevice = some (c, u) ∧ t = completeInput k c u := by
  unfold waitStep at h
  split at h
  next c u hc => exact ⟨c, u, hc, by cases h; rfl⟩
  next => cases h

/-- The two things a string step can do (R147, R151). -/
theorem stringStep_cases (k : StringKind) (a : Word) (s : State) :
    (s.memReadRaw a = 0 ∧ stringStep k a s = s.setRunState .running) ∨
    (s.memReadRaw a ≠ 0 ∧
      stringStep k a s = (s.emit (stringBytes k (s.memReadRaw a))).setRunState (.stringOut k (a + 1))) := by
  by_cases h : s.memReadRaw a = 0
  · exact .inl ⟨h, if_pos h⟩
  · exact .inr ⟨h, if_neg h⟩

end Sys2Proof.Machine
end

