-- ==== Sys2Proof/Laws/PerInstr.lean ====
section
/-! SUPPORT. A family of statements made once per instruction: the word of every instruction fits the row of R66 that its
class has. -/

namespace Sys2Proof.Laws.FitsRow

/-- The word of an instruction has its class's match under its class's mask (R66). -/
def Statement (i : Instr) : Prop :=
  encode i &&& i.instrClass.mask = i.instrClass.matchWord

theorem word12_fits (op : Opcode) (low : BitVec 12) : word12 op low &&& 0xF000 = op.bits ++ 0#12 := by
  apply BitVec.eq_of_getLsbD_eq
  intro i hi
  rw [BitVec.getLsbD_and, word12_getLsbD, BitVec.getLsbD_append]
  interval_cases i <;> simp

theorem word39_fits (op : Opcode) (a : BitVec 3) (b : BitVec 9) : word39 op a b &&& 0xF000 = op.bits ++ 0#12 := by
  apply BitVec.eq_of_getLsbD_eq
  intro i hi
  rw [BitVec.getLsbD_and, word39_getLsbD, BitVec.getLsbD_append]
  interval_cases i <;> simp

theorem word336_fits (op : Opcode) (a b : BitVec 3) (c : BitVec 6) :
    word336 op a b c &&& 0xF000 = op.bits ++ 0#12 := by
  apply BitVec.eq_of_getLsbD_eq
  intro i hi
  rw [BitVec.getLsbD_and, word336_getLsbD, BitVec.getLsbD_append]
  interval_cases i <;> simp

theorem wordTrap_fits (x : BitVec 4) (v : BitVec 8) : wordTrap x v &&& 0xF000 = 0xF000 := by
  apply BitVec.eq_of_getLsbD_eq
  intro i hi
  rw [BitVec.getLsbD_and, wordTrap_getLsbD]
  interval_cases i <;> simp [Opcode.bits]

theorem wordRegister_fits (op : Opcode) (dr sr1 : Reg) (x : BitVec 2) (sr2 : Reg) :
    wordRegister op dr sr1 x sr2 &&& 0xF020 = op.bits ++ 0#12 := by
  apply BitVec.eq_of_getLsbD_eq
  intro i hi
  rw [BitVec.getLsbD_and, wordRegister_getLsbD, BitVec.getLsbD_append]
  interval_cases i <;> simp

theorem wordImmediate_fits (op : Opcode) (dr sr1 : Reg) (imm5 : BitVec 5) :
    wordImmediate op dr sr1 imm5 &&& 0xF020 = op.bits ++ 0x20#12 := by
  apply BitVec.eq_of_getLsbD_eq
  intro i hi
  rw [BitVec.getLsbD_and, wordImmediate_getLsbD, BitVec.getLsbD_append]
  interval_cases i <;> simp

theorem addReg (dr sr1 : Reg) (x : BitVec 2) (sr2 : Reg) : Statement (.addReg dr sr1 x sr2) :=
  wordRegister_fits .add dr sr1 x sr2
theorem addImm (dr sr1 : Reg) (imm5 : BitVec 5) : Statement (.addImm dr sr1 imm5) := wordImmediate_fits .add dr sr1 imm5
theorem andReg (dr sr1 : Reg) (x : BitVec 2) (sr2 : Reg) : Statement (.andReg dr sr1 x sr2) :=
  wordRegister_fits .and dr sr1 x sr2
theorem andImm (dr sr1 : Reg) (imm5 : BitVec 5) : Statement (.andImm dr sr1 imm5) := wordImmediate_fits .and dr sr1 imm5
theorem notReg (dr sr : Reg) (x : BitVec 6) : Statement (.notReg dr sr x) := word336_fits .not dr.bits sr.bits x
theorem br (nzp : BitVec 3) (off : BitVec 9) : Statement (.br nzp off) := word39_fits .br nzp off
theorem ret (x : BitVec 3) (y : BitVec 6) : Statement (.ret x y) := word336_fits .jmp x Reg.r7.bits y
theorem jmp (x : BitVec 3) (b : Reg) (y : BitVec 6) : Statement (.jmp x b y) := word336_fits .jmp x b.bits y
theorem jsr (off : BitVec 11) : Statement (.jsr off) := by
  apply BitVec.eq_of_getLsbD_eq
  intro i hi
  simp only [encode, Instr.instrClass, InstrClass.mask, InstrClass.matchWord, BitVec.getLsbD_and, wordJsr_getLsbD]
  interval_cases i <;> simp [Opcode.bits]
theorem jsrr (x : BitVec 2) (b : Reg) (y : BitVec 6) : Statement (.jsrr x b y) := by
  apply BitVec.eq_of_getLsbD_eq
  intro i hi
  simp only [encode, Instr.instrClass, InstrClass.mask, InstrClass.matchWord, BitVec.getLsbD_and, wordJsrr_getLsbD]
  interval_cases i <;> simp [Opcode.bits]
theorem ld (dr : Reg) (off : BitVec 9) : Statement (.ld dr off) := word39_fits .ld dr.bits off
theorem ldi (dr : Reg) (off : BitVec 9) : Statement (.ldi dr off) := word39_fits .ldi dr.bits off
theorem ldr (dr b : Reg) (off : BitVec 6) : Statement (.ldr dr b off) := word336_fits .ldr dr.bits b.bits off
theorem lea (dr : Reg) (off : BitVec 9) : Statement (.lea dr off) := word39_fits .lea dr.bits off
theorem st (sr : Reg) (off : BitVec 9) : Statement (.st sr off) := word39_fits .st sr.bits off
theorem sti (sr : Reg) (off : BitVec 9) : Statement (.sti sr off) := word39_fits .sti sr.bits off
theorem str (sr b : Reg) (off : BitVec 6) : Statement (.str sr b off) := word336_fits .str sr.bits b.bits off
theorem getc (x : BitVec 4) : Statement (.getc x) := wordTrap_fits x 0x20
theorem out (x : BitVec 4) : Statement (.out x) := wordTrap_fits x 0x21
theorem puts (x : BitVec 4) : Statement (.puts x) := wordTrap_fits x 0x22
theorem inEcho (x : BitVec 4) : Statement (.inEcho x) := wordTrap_fits x 0x23
theorem putsp (x : BitVec 4) : Statement (.putsp x) := wordTrap_fits x 0x24
theorem halt (x : BitVec 4) : Statement (.halt x) := wordTrap_fits x 0x25
theorem trap (x : BitVec 4) (v : BitVec 8) : Statement (.trap x v) := wordTrap_fits x v
theorem rti (x : BitVec 12) : Statement (.rti x) := word12_fits .rti x
theorem res (x : BitVec 12) : Statement (.res x) := word12_fits .res x

end Sys2Proof.Laws.FitsRow
end

