-- ==== Sys2Proof/Laws/Step.lean ====
section
/-! SUPPORT. What an instruction and a step can do, said once. -/

namespace Sys2Proof.Machine

/-- Every way an instruction changes the state: registers, PC and COND as its own rule says, the memory by reads
and writes that keep its form, the output by appending, and the run state; the host's schedule and the parameters
never. -/
structure Evolves (s t : State) : Prop where
  mem_wf : s.mem.wf = true → t.mem.wf = true
  cond_oneHot : condOneHot s.cond = true → condOneHot t.cond = true
  output : ∃ bs, t.output = s.output ++ bs
  params : t.params = s.params

namespace Evolves

theorem refl (s : State) : Evolves s s := ⟨id, id, ⟨[], by simp⟩, rfl⟩

theorem trans {s t u : State} (h : Evolves s t) (g : Evolves t u) : Evolves s u := by
  obtain ⟨as, ha⟩ := h.output
  obtain ⟨bs, hb⟩ := g.output
  exact ⟨g.mem_wf ∘ h.mem_wf, g.cond_oneHot ∘ h.cond_oneHot, ⟨as ++ bs, by rw [hb, ha, List.append_assoc]⟩,
    g.params.trans h.params⟩

theorem setReg (s : State) (r : Reg) (v : Word) : Evolves s (s.setReg r v) := ⟨id, id, ⟨[], by simp⟩, rfl⟩
theorem setPc (s : State) (v : Word) : Evolves s (s.setPc v) := ⟨id, id, ⟨[], by simp⟩, rfl⟩
theorem setRunState (s : State) (r : RunState) : Evolves s (s.setRunState r) := ⟨id, id, ⟨[], by simp⟩, rfl⟩
theorem emit (s : State) (bs : List Byte) : Evolves s (s.emit bs) := ⟨id, id, ⟨bs, rfl⟩, rfl⟩
theorem tick (s : State) : Evolves s s.tick := ⟨id, id, ⟨[], by simp⟩, rfl⟩
theorem memWrite (s : State) (a v : Word) : Evolves s (s.memWrite a v) :=
  ⟨fun h => Memory.wf_write h a v, id, ⟨[], by simp⟩, rfl⟩
theorem setRegCC (s : State) (r : Reg) (v : Word) : Evolves s (s.setRegCC r v) :=
  ⟨id, fun _ => condOneHot_setcc v, ⟨[], by simp⟩, rfl⟩
theorem afterRead (s : State) (a : Word) : Evolves s (s.afterRead a) :=
  ⟨State.afterRead_mem_wf a, by simp, ⟨[], by simp⟩, by simp⟩
theorem awaitDevice {s u : State} {c : Word} (h : s.awaitDevice = some (c, u)) : Evolves s u := by
  obtain ⟨i, d, rfl⟩ := State.awaitDevice_eq h
  exact ⟨id, id, ⟨[], by simp⟩, rfl⟩
theorem trapDispatch (v : BitVec 8) (ir : Word) (s : State) : Evolves s (trapDispatch v ir s) := by
  obtain ⟨bs, r, h⟩ := trapDispatch_eq v ir s
  rw [h]; exact (emit s bs).trans (setRunState _ r)

end Evolves

/-- Every instruction answers a next state that its state evolves to. -/
theorem exec_evolves (i : Instr) (s : State) : ∃ t, exec i s = .next t ∧ Evolves s t := by
  have hlink : Evolves s s.link := Evolves.setReg s .r7 s.pc
  cases i with
  | addReg dr sr1 x sr2 => exact ⟨_, rfl, .setRegCC s _ _⟩
  | addImm dr sr1 imm5 => exact ⟨_, rfl, .setRegCC s _ _⟩
  | andReg dr sr1 x sr2 => exact ⟨_, rfl, .setRegCC s _ _⟩
  | andImm dr sr1 imm5 => exact ⟨_, rfl, .setRegCC s _ _⟩
  | notReg dr sr x => exact ⟨_, rfl, .setRegCC s _ _⟩
  | br nzp off =>
    refine ⟨_, rfl, ?_⟩
    split
    · exact .setPc s _
    · exact .refl s
  | ret x y => exact ⟨_, rfl, .setPc s _⟩
  | jmp x b y => exact ⟨_, rfl, .setPc s _⟩
  | jsr off => exact ⟨_, rfl, hlink.trans (.setPc _ _)⟩
  | jsrr x b y =>
    obtain ⟨v, hv⟩ := callThrough_eq s.params.jsrrLinkOrder b s
    exact ⟨_, rfl, by rw [hv]; exact hlink.trans (.setPc _ _)⟩
  | ld dr off => exact ⟨_, rfl, (Evolves.afterRead s _).trans (.setRegCC _ _ _)⟩
  | ldi dr off => exact ⟨_, rfl, ((Evolves.afterRead s _).trans (.afterRead _ _)).trans (.setRegCC _ _ _)⟩
  | ldr dr b off => exact ⟨_, rfl, (Evolves.afterRead s _).trans (.setRegCC _ _ _)⟩
  | lea dr off => exact ⟨_, rfl, .setRegCC s _ _⟩
  | st sr off => exact ⟨_, rfl, .memWrite s _ _⟩
  | sti sr off => exact ⟨_, rfl, (Evolves.afterRead s _).trans (.memWrite _ _ _)⟩
  | str sr b off => exact ⟨_, rfl, .memWrite s _ _⟩
  | getc x => exact ⟨_, rfl, hlink.trans (.setRunState _ _)⟩
  | out x => exact ⟨_, rfl, hlink.trans (.emit _ _)⟩
  | puts x => exact ⟨_, rfl, hlink.trans (.setRunState _ _)⟩
  | inEcho x => exact ⟨_, rfl, hlink.trans ((Evolves.emit _ _).trans (.setRunState _ _))⟩
  | putsp x => exact ⟨_, rfl, hlink.trans (.setRunState _ _)⟩
  | halt x => exact ⟨_, rfl, hlink.trans ((Evolves.emit _ _).trans (.setRunState _ _))⟩
  | trap x v => exact ⟨_, rfl, hlink.trans (.trapDispatch _ _ _)⟩
  | rti x => exact ⟨_, rfl, .setRunState s _⟩
  | res x => exact ⟨_, rfl, .setRunState s _⟩

/-- The four things a step that goes on can do. -/
theorem step_cases {s t : State} (h : step s = .next t) :
    (s.runState.terminal = false ∧ s.abortDue = true ∧ t = hostAbort s) ∨
    (s.runState = .running ∧ s.abortDue = false ∧ exec (decode (fetch s.tick).1) (fetch s.tick).2 = .next t) ∨
    (∃ k, s.runState = .waitInput k ∧ s.abortDue = false ∧ waitStep k s.tick = .next t) ∨
    (∃ k a, s.runState = .stringOut k a ∧ s.abortDue = false ∧ t = stringStep k a s.tick) := by
  unfold step at h
  split at h
  · cases h
  · cases h
  · cases h
  next hr =>
    split at h
    next ha => exact .inl ⟨by rw [hr]; rfl, ha, by cases h; rfl⟩
    next ha => exact .inr (.inl ⟨hr, by simpa using ha, h⟩)
  next k hr =>
    split at h
    next ha => exact .inl ⟨by rw [hr]; rfl, ha, by cases h; rfl⟩
    next ha => exact .inr (.inr (.inl ⟨k, hr, by simpa using ha, h⟩))
  next k a hr =>
    split at h
    next ha => exact .inl ⟨by rw [hr]; rfl, ha, by cases h; rfl⟩
    next ha => exact .inr (.inr (.inr ⟨k, a, hr, by simpa using ha, by cases h; rfl⟩))

theorem step_of_running {s : State} (hr : s.runState = .running) (ha : s.abortDue = false) :
    step s = exec (decode (fetch s.tick).1) (fetch s.tick).2 := by
  simp [step, hr, ha, stepInstruction]

theorem step_of_waitInput {s : State} {k : InputKind} (hr : s.runState = .waitInput k) (ha : s.abortDue = false) :
    step s = waitStep k s.tick := by
  simp [step, hr, ha]

theorem step_of_stringOut {s : State} {k : StringKind} {a : Word} (hr : s.runState = .stringOut k a)
    (ha : s.abortDue = false) : step s = .next (stringStep k a s.tick) := by
  simp [step, hr, ha]

/-! ## Runs and strings -/

/-- A run whose first step goes on is the rest of the run from where it went. -/
theorem run_succ_of_next {s t : State} (h : step s = .next t) (n : Nat) :
    Sys2Proof.core.run (n + 1) s = Sys2Proof.core.run n t := by
  have h' : Sys2Proof.core.step s = .next t := h
  simp only [Host.Core.run, h']

/-- No abort within a positive number of steps: none is due now, and one fewer is safe after the tick. -/
theorem abortDue_of_noAbortWithin {s : State} {n : Nat} (h : s.noAbortWithin (n + 1)) :
    s.abortDue = false ∧ s.tick.noAbortWithin n := by
  constructor
  · unfold State.abortDue
    cases hk : s.abortIn with
    | none => rfl
    | some k => have := h k hk; simp; omega
  · intro k hk
    simp only [State.tick_abortIn, Option.map_eq_some_iff] at hk
    obtain ⟨j, hj, rfl⟩ := hk
    have := h j hj
    omega

/-- What stands in memory as a string depends on the memory only. -/
theorem holdsString_of_mem_eq {s t : State} :
    ∀ {ws : List Word} {a : Word}, s.holdsString a ws → t.mem = s.mem → t.holdsString a ws
  | [], _, hs, h => by simpa [State.holdsString, State.memReadRaw, h] using hs
  | _ :: _, _, ⟨hw, hm, hs⟩, h =>
    ⟨hw, by simpa [State.memReadRaw, h] using hm, holdsString_of_mem_eq hs h⟩

theorem lowByte_eq (w : Word) : lowByte w = w.setWidth 8 := by
  apply BitVec.eq_of_getLsbD_eq
  intro i hi
  simp [lowByte, hi]

theorem highByte_eq (w : Word) : highByte w = (w >>> 8).setWidth 8 := by
  apply BitVec.eq_of_getLsbD_eq
  intro i hi
  simp [highByte, hi]

theorem highByte_eq_zero_iff (w : Word) : highByte w = 0 ↔ w.toNat < 256 := by
  rw [← BitVec.toNat_inj, highByte, BitVec.extractLsb'_toNat, Nat.shiftRight_eq_div_pow]
  have := w.isLt
  simp
  omega

end Sys2Proof.Machine
end

