-- ==== Sys2Proof/Tests/Slice0.lean ====
section
/-! SUPPORT. The model's own tests. Expected values are those of 95_test_vectors.md (W and V numbers, each given beside its
test) or of the rule named. After them, one witness for every hypothesis a statement of Obligations.lean has, at a boundary
value of each clause. -/

namespace Sys2Proof.Tests

open Sys2Proof Sys2Proof.Machine

/-! ## Helpers -/

/-- Reset, with one word at 0x3000. -/
def start (w : Word) : State :=
  State.reset.memWrite 0x3000 w

/-- The state a step leads to, if it leads to one. -/
def stepped (s : State) : Option State :=
  match step s with
  | .next t => some t
  | .fault _ | .refused _ => none

/-! ## Well-formed terms -/

/-- R111: JMP R7 has RET's row. -/
theorem test_wellFormed_refuses_jmp_r7 : (Instr.jmp 0 .r7 0).wellFormed = false := by decide

/-- R142: a defined vector has its routine's row; 0x20 and 0x25 are the ends of the range. -/
theorem test_wellFormed_refuses_defined_vector :
    (Instr.trap 0 0x20).wellFormed = false ∧ (Instr.trap 0 0x25).wellFormed = false ∧
    (Instr.trap 0 0x1F).wellFormed = true ∧ (Instr.trap 0 0x26).wellFormed = true := by decide

/-! ## Decoding: the spec's words, written out -/

/-- V1, V9, V2. -/
theorem test_decode_add : decode 0b0001_000_001_0_00_010 = .addReg .r0 .r1 0 .r2 ∧
    decode 0x105A = .addReg .r0 .r1 3 .r2 ∧ decode 0b0001_000_001_1_00101 = .addImm .r0 .r1 5 := by decide

/-- V10, V12. -/
theorem test_decode_and : decode 0b0101_010_011_0_00_100 = .andReg .r2 .r3 0 .r4 ∧
    decode 0b0101_000_001_1_11111 = .andImm .r0 .r1 31 := by decide

/-- V14, V16. -/
theorem test_decode_not : decode 0b1001_001_010_111111 = .notReg .r1 .r2 63 ∧ decode 0x9280 = .notReg .r1 .r2 0 := by
  decide

/-- V20, V24. -/
theorem test_decode_br : decode 0b0000_010_000000010 = .br 0b010 2 ∧ decode 0b0000_100_100000000 = .br 0b100 0x100 := by
  decide

/-- V26, V27. -/
theorem test_decode_jmp_ret : decode 0b1100_000_010_000000 = .jmp 0 .r2 0 ∧ decode 0b1100_000_111_000000 = .ret 0 0 := by
  decide

/-- V28, V29, V30. -/
theorem test_decode_jsr_jsrr : decode 0b0100_1_00000000101 = .jsr 5 ∧ decode 0b0100_1_10000000000 = .jsr 0x400 ∧
    decode 0b0100_0_00_011_000000 = .jsrr 0 .r3 0 := by decide

/-- V40, V42, V43, V45. -/
theorem test_decode_loads : decode 0b0010_001_000000010 = .ld .r1 2 ∧ decode 0b1010_010_111111110 = .ldi .r2 0x1FE ∧
    decode 0b0110_011_100_111111 = .ldr .r3 .r4 63 ∧ decode 0b1110_000_000000101 = .lea .r0 5 := by decide

/-- V48, V49, V50. -/
theorem test_decode_stores : decode 0b0011_001_000000011 = .st .r1 3 ∧ decode 0b1011_010_000000100 = .sti .r2 4 ∧
    decode 0b0111_101_110_011111 = .str .r5 .r6 31 := by decide

/-- V80 to V94; V81 has `ir[11:8]` = 1111. -/
theorem test_decode_trap : decode 0b1111_0000_00100000 = .getc 0 ∧ decode 0xF021 = .out 0 ∧ decode 0xF022 = .puts 0 ∧
    decode 0xF023 = .inEcho 0 ∧ decode 0xF024 = .putsp 0 ∧ decode 0xF025 = .halt 0 ∧ decode 0xFF25 = .halt 15 ∧
    decode 0xF026 = .trap 0 0x26 ∧ decode 0xF000 = .trap 0 0 := by decide

/-- V100, V101, V102. -/
theorem test_decode_reserved : decode 0b1101_000000000000 = .res 0 ∧ decode 0xDFFF = .res 0xFFF ∧
    decode 0b1000_000000000000 = .rti 0 := by decide

/-- The encoder on the same words. -/
theorem test_encode_words : encode (.addReg .r0 .r1 3 .r2) = 0x105A ∧ encode (.andImm .r0 .r1 31) = 0x507F ∧
    encode (.notReg .r1 .r2 63) = 0x92BF ∧ encode (.ret 0 0) = 0xC1C0 ∧ encode (.jsr 0x400) = 0x4C00 ∧
    encode (.jsrr 0 .r3 0) = 0x40C0 ∧ encode (.sti .r2 4) = 0xB404 ∧ encode (.str .r5 .r6 31) = 0x7B9F ∧
    encode (.halt 15) = 0xFF25 ∧ encode (.res 0xFFF) = 0xDFFF := by decide

/-- The host reads a table word through the same decoder. -/
theorem test_decodeTableWord : decodeTableWord 16 0x1065 = some (.addImm .r0 .r1 5) := by decide

/-- W1 and section 2.1. -/
theorem test_sext : sext (0b10101 : BitVec 5) = 0xFFF5 ∧ sext (0b100101 : BitVec 6) = 0xFFE5 ∧
    sext (0b00101 : BitVec 5) = 0x0005 ∧ sext (0x100 : BitVec 9) = 0xFF00 ∧ sext (0x0FF : BitVec 9) = 0x00FF ∧
    sext (0x400 : BitVec 11) = 0xFC00 ∧ sext (0x20 : BitVec 6) = 0xFFE0 := by decide

/-- W2. -/
theorem test_setcc : setcc 0x0000 = 0b010 ∧ setcc 0x8000 = 0b100 ∧ setcc 0xFFFF = 0b100 ∧ setcc 0x7FFF = 0b001 ∧
    setcc 0x0001 = 0b001 := by decide

/-! ## One step of each instruction -/

/-- V5: the carry is lost. -/
theorem test_add_register_wraps : (stepped (((start 0x1042).setReg .r1 0xFFFF).setReg .r2 1)).map
    (fun t => (t.reg .r0, t.cond, t.pc)) = some (0x0000, 0b010, 0x3001) := by decide

/-- V7: the least immediate. -/
theorem test_add_immediate_extends : (stepped ((start 0x1030).setReg .r0 0x0010)).map
    (fun t => (t.reg .r0, t.cond)) = some (0x0000, 0b010) := by decide

/-- W3. -/
theorem test_add_immediate : (stepped ((start 0x1065).setReg .r1 10)).map
    (fun t => (t.reg .r0, t.cond, t.pc)) = some (15, 0b001, 0x3001) := by decide

/-- V10. -/
theorem test_and_register : (stepped (((start 0x54C4).setReg .r3 0x0F0F).setReg .r4 0x00FF)).map
    (fun t => (t.reg .r2, t.cond)) = some (0x000F, 0b001) := by decide

/-- V12. -/
theorem test_and_immediate_extends : (stepped ((start 0x507F).setReg .r1 0x8001)).map
    (fun t => (t.reg .r0, t.cond)) = some (0x8001, 0b100) := by decide

/-- V14. -/
theorem test_not : (stepped ((start 0x92BF).setReg .r2 0x00FF)).map
    (fun t => (t.reg .r1, t.cond)) = some (0xFF00, 0b100) := by decide

/-- V20 and V21. -/
theorem test_br_taken_and_not : (stepped (start 0x0402)).map State.pc = some 0x3003 ∧
    (stepped (start 0x0204)).map State.pc = some 0x3001 := by decide

/-- V25: PC† wraps before the offset is added. -/
theorem test_br_wraps : (stepped ((State.reset.memWrite 0xFFFF 0x0E01).setPc 0xFFFF)).map State.pc = some 0x0001 := by
  decide

/-- V26. -/
theorem test_jmp : (stepped ((start 0xC080).setReg .r2 0x4000)).map State.pc = some 0x4000 := by decide

/-- V27. -/
theorem test_ret : (stepped ((start 0xC1C0).setReg .r7 0x3050)).map
    (fun t => (t.pc, t.reg .r7)) = some (0x3050, 0x3050) := by decide

/-- V29. -/
theorem test_jsr : (stepped (start 0x4C00)).map (fun t => (t.reg .r7, t.pc)) = some (0x3001, 0x2C01) := by decide

/-- V31, and V32 under `read_first`. -/
theorem test_jsrr_r7_in_both_orders :
    (stepped ((start 0x41C0).setReg .r7 0x5000)).map (fun t => (t.reg .r7, t.pc)) = some (0x3001, 0x3001) ∧
    (stepped { (start 0x41C0).setReg .r7 0x5000 with params := { Params.default with jsrrLinkOrder := .readFirst } }).map
      (fun t => (t.reg .r7, t.pc)) = some (0x3001, 0x5000) := by decide

/-- V41. -/
theorem test_ld : (stepped ((start 0x2300).memWrite 0x2F01 0x0007)).map
    (fun t => (t.reg .r1, t.cond)) = some (0x0007, 0b001) := by decide

/-- W5. -/
theorem test_ldi : (stepped (((start 0xA201).memWrite 0x3002 0x4000).memWrite 0x4000 0x1234)).map
    (fun t => (t.reg .r1, t.cond, t.pc)) = some (0x1234, 0b001, 0x3001) := by decide

/-- V43. -/
theorem test_ldr : (stepped (((start 0x673F).setReg .r4 0x4001).memWrite 0x4000 0x0042)).map
    (fun t => (t.reg .r3, t.cond)) = some (0x0042, 0b001) := by decide

/-- V44: the base is the destination. -/
theorem test_ldr_base_is_destination : (stepped (((start 0x6240).setReg .r1 0x4000).setCond 0b001)).map
    (fun t => (t.reg .r1, t.cond)) = some (0x0000, 0b010) := by decide

/-- V46. -/
theorem test_lea : (stepped ((State.reset.memWrite 0x7FFF 0xE000).setPc 0x7FFF)).map
    (fun t => (t.reg .r0, t.cond, t.pc)) = some (0x8000, 0b100, 0x8000) := by decide

/-- V48. -/
theorem test_st : (stepped (((start 0x3203).setReg .r1 0xBEEF).setCond 0b100)).map
    (fun t => (t.memReadRaw 0x3004, t.cond)) = some (0xBEEF, 0b100) := by decide

/-- V49. -/
theorem test_sti : (stepped (((start 0xB404).setReg .r2 7).memWrite 0x3005 0x4100)).map
    (fun t => (t.memReadRaw 0x4100, t.memReadRaw 0x3005)) = some (0x0007, 0x4100) := by decide

/-- V51: the address wraps. -/
theorem test_str_wraps : (stepped ((start 0x707F).setReg .r0 0xABCD)).map
    (fun t => t.memReadRaw 0xFFFF) = some 0xABCD := by decide

/-- V80 and V81. -/
theorem test_halt : (stepped (start 0xF025)).map (fun t => (t.runState, t.reg .r7, t.pc, t.cond)) =
      some (.halted, 0x3001, 0x3001, 0b010) ∧
    (stepped (start 0xFF25)).map (fun t => (t.runState, t.reg .r7)) = some (.halted, 0x3001) := by decide

/-- V82's first step. -/
theorem test_getc_waits : (stepped (start 0xF020)).map (fun t => (t.runState, t.reg .r7, t.pc)) =
    some (.waitInput .getc, 0x3001, 0x3001) := by decide

/-- V83's second step. -/
theorem test_getc_completes :
    (stepped { State.reset with runState := .waitInput .getc, cond := 0b001, input := [some 0x00] }).map
      (fun t => (t.reg .r0, t.cond, t.output, t.runState)) = some (0x0000, 0b010, [], .running) := by decide

/-- V85. -/
theorem test_out : (stepped ((start 0xF021).setReg .r0 0x0141)).map
    (fun t => (t.output, t.reg .r0, t.reg .r7)) = some ([0x41], 0x0141, 0x3001) := by decide

/-- V89's first step. -/
theorem test_in_waits : (stepped (start 0xF023)).map (fun t => (t.runState, t.reg .r7)) =
    some (.waitInput .inEcho, 0x3001) := by decide

/-- V89's second step. -/
theorem test_in_echoes : (stepped { State.reset with runState := .waitInput .inEcho, input := [some 0x37] }).map
    (fun t => (t.reg .r0, t.cond, t.output, t.runState)) = some (0x0037, 0b001, [0x37], .running) := by decide

/-- V86's first step. -/
theorem test_puts_starts : (stepped ((start 0xF022).setReg .r0 0x4000)).map
    (fun t => (t.runState, t.reg .r7)) = some (.stringOut .puts 0x4000, 0x3001) := by decide

/-- V87's and V88's string steps: the high byte ignored, the address wrapping. -/
theorem test_puts_word : (stepped { State.reset.memWrite 0xFFFF 0x0100 with runState := .stringOut .puts 0xFFFF }).map
    (fun t => (t.output, t.runState)) = some ([0x00], .stringOut .puts 0x0000) := by decide

/-- V90's first step. -/
theorem test_putsp_starts : (stepped ((start 0xF024).setReg .r0 0x4000)).map
    (fun t => (t.runState, t.reg .r7)) = some (.stringOut .putsp 0x4000, 0x3001) := by decide

/-- V90's words 0x6548 and 0x006F. -/
theorem test_putsp_words :
    (stepped { State.reset.memWrite 0x4000 0x6548 with runState := .stringOut .putsp 0x4000 }).map State.output =
      some [0x48, 0x65] ∧
    (stepped { State.reset.memWrite 0x4000 0x006F with runState := .stringOut .putsp 0x4000 }).map State.output =
      some [0x6F] := by decide

/-- V92 and V93. -/
theorem test_unknown_trap_under_both_policies :
    (stepped (start 0xF026)).map (fun t => (t.runState, t.reg .r7)) =
      some (.faulted .unknownTrap 0xF026 0x3000, 0x3001) ∧
    (stepped { start 0xF026 with params := { Params.default with unknownTrapPolicy := .nop } }).map
      (fun t => (t.runState, t.reg .r7)) = some (.running, 0x3001) := by decide

/-- V101. -/
theorem test_res : (stepped ((State.reset.memWrite 0x4000 0xDFFF).setPc 0x4000)).map (fun t => (t.runState, t.pc)) =
    some (.faulted .reservedOpcode 0xDFFF 0x4000, 0x4001) := by decide

/-- V102. -/
theorem test_rti : (stepped ((State.reset.memWrite 0x3005 0x8000).setPc 0x3005)).map (fun t => (t.runState, t.pc)) =
    some (.faulted .rtiUnimplemented 0x8000 0x3005, 0x3006) := by decide

/-! ## The keyboard, the fetch, the host -/

/-- V60. -/
theorem test_keyboard_ready : (stepped { (start 0x6040).setReg .r1 0xFE00 with input := [some 0x78] }).map
    (fun t => (t.memReadRaw 0xFE00, t.memReadRaw 0xFE02, t.reg .r0, t.cond)) =
      some (0x8000, 0x0078, 0x8000, 0b100) := by decide

/-- V61. -/
theorem test_keyboard_not_ready :
    (stepped { ((start 0x6040).setReg .r1 0xFE00).memWrite 0xFE00 0x8000 with input := [none] }).map
      (fun t => (t.memReadRaw 0xFE00, t.reg .r0, t.cond)) = some (0x0000, 0x0000, 0b010) := by decide

/-- V62 and V63: no poll. -/
theorem test_keyboard_no_poll :
    (stepped { ((start 0x6040).setReg .r1 0xFE02).memWrite 0xFE02 0x0061 with input := [some 0x78] }).map
      (fun t => (t.reg .r0, t.input)) = some (0x0061, [some 0x78]) ∧
    (stepped { ((start 0x7040).setReg .r1 0xFE00).setReg .r0 0x1234 with input := [some 0x78] }).map
      (fun t => (t.memReadRaw 0xFE00, t.input)) = some (0x1234, [some 0x78]) := by decide

/-- V64. -/
theorem test_fetch_polls : (stepped { State.reset.setPc 0xFE00 with input := [some 0x41] }).map
    (fun t => (t.memReadRaw 0xFE00, t.memReadRaw 0xFE02, t.runState, t.pc)) =
      some (0x8000, 0x0041, .faulted .rtiUnimplemented 0x8000 0xFE00, 0xFE01) := by decide

/-- V70. -/
theorem test_fetch_wraps : (stepped (State.reset.setPc 0xFFFF)).map (fun t => (t.pc, t.runState)) =
    some (0x0000, .running) := by decide

/-- R186: the host's abort takes the step's place. -/
theorem test_abort : stepped { State.reset with abortIn := some 0 } =
    some { State.reset with abortIn := some 0, runState := .aborted } := by decide

/-- R152, R182, R186: the terminal states have no step. -/
theorem test_terminal_states_do_not_step :
    step { State.reset with runState := .halted } = .fault .halted ∧
    step { State.reset with runState := .faulted .unknownTrap 0xF026 0x3000 } = .fault (.faulted .unknownTrap) ∧
    step { State.reset with runState := .aborted } = .fault .aborted := ⟨rfl, rfl, rfl⟩

/-- The host's placed word is the next one to run, from the keyboard status address too. -/
theorem test_withFetchWord : (stepped (State.reset.withFetchWord 16 0x1025)).map (fun t => (t.reg .r0, t.pc)) =
      some (5, 0x3001) ∧
    (stepped ((State.reset.setPc 0xFE00).withFetchWord 16 0x1025)).map (fun t => (t.reg .r0, t.pc)) =
      some (5, 0xFE02) := by decide

/-! ## Images -/

/-- W7 and V110. -/
theorem test_image : (boot [some [0x30, 0x00, 0xF0, 0x25]]).map State.mem = some [(0x3000, 0xF025)] := by decide

/-- V111. -/
theorem test_later_image_overwrites :
    (boot [some [0x30, 0x00, 0x11, 0x11, 0x22, 0x22, 0x33, 0x33], some [0x30, 0x01, 0xAA, 0xAA]]).map State.mem =
      some [(0x3000, 0x1111), (0x3001, 0xAAAA), (0x3002, 0x3333)] := by decide

/-- V112 and V113. -/
theorem test_image_at_the_top : (boot [some [0xFF, 0xFF, 0x12, 0x34, 0x56, 0x78]]).map State.mem =
      some [(0xFFFF, 0x1234)] ∧
    (boot [some [0x30, 0x00, 0x12, 0x34, 0x56]]).map State.mem = some [(0x3000, 0x1234)] := by decide

/-- V114, V115, V117, and R204's unopened stream beside a good one. -/
theorem test_boot_fails : boot [some [0x30]] = none ∧ boot [some [0x30, 0x00]] = some State.reset ∧ boot [] = none ∧
    boot [some [0x30, 0x00], none] = none := by decide

/-- Writing what an unlisted address reads as removes the entry (R32, log entry 14). -/
theorem test_memory_is_canonical : ((start 0x1234).memWrite 0x3000 0).mem = [] ∧
    ((start 0x1234).memWrite 0x2FFF 1).mem = [(0x2FFF, 1), (0x3000, 0x1234)] := by decide

/-! ## Witnesses: the hypotheses of the statements can be met

Each docstring names the statements; the theorem gives a state and operands that meet the hypotheses of
each of its clauses. Statements without hypotheses need none. -/

/-- DecodeOfEncodeIsIdentity. -/
theorem witness_wellFormed : (Instr.jmp 7 .r6 0x3F).wellFormed = true ∧ (Instr.trap 0xF 0x1F).wellFormed = true := by decide

/-- SextCopiesTheHighBit: a bit of the field, and bits above it, at both ends of the width. -/
theorem witness_sext : (0 < 5 ∧ 5 ≤ 16 ∧ 4 < 16 ∧ 4 < 5) ∧ (5 < 16 ∧ ¬ 5 < 5) ∧ (0 < 16 ∧ 16 ≤ 16 ∧ 15 < 16) := by decide

/-- IgnoredBitsDoNotChangeExecution: 0x105A is not a fatal fault. -/
theorem witness_ignoredBits : (decode 0x105A).faults State.reset.params.unknownTrapPolicy = false := by decide

/-- StepExecutesTheInstructionAtPc: both clauses. -/
theorem witness_step : (start 0x1065).runState = .running ∧ (start 0x1065).abortDue = false ∧
    (Instr.addImm .r0 .r1 5).wellFormed = true ∧ (start 0x1065).pc ≠ (start 0x1065).params.kbsrAddr ∧
    (start 0x1065).memReadRaw (start 0x1065).pc = encode (.addImm .r0 .r1 5) := by decide

/-- PlacedWordIsExecutedNext: the clause away from the keyboard status address. -/
theorem witness_placed : State.reset.pc ≠ State.reset.params.kbsrAddr := by decide

/-- A state that meets the invariant. -/
theorem witness_inv : (start 0x1065).Inv := ⟨by rfl, by rfl, by decide⟩

/-- FetchFromKeyboardStatusPolls: a ready device, and one that is not. -/
theorem witness_fetch_polls (a : Option Word) (_ : a = some 0x41 ∨ a = none) :
    let s : State := { State.reset.setPc 0xFE00 with input := [a] }
    s.Inv ∧ s.runState = .running ∧ s.abortDue = false ∧ s.pc = s.params.kbsrAddr ∧ s.input = a :: [] :=
  ⟨⟨by rfl, by rfl, witness_inv.keyboard_ne⟩, rfl, rfl, rfl, rfl⟩

/-- ZeroWordOnlyAdvancesPc: at 0xFFFF. -/
theorem witness_zero_word : let s := State.reset.setPc 0xFFFF
    s.runState = .running ∧ s.abortDue = false ∧ s.pc ≠ s.params.kbsrAddr ∧ s.memReadRaw s.pc = 0 ∧ s.pc = 0xFFFF := by decide

/-- StoreIsSeenByTheNextFetch: ST R1, #0, STR R1, R2, #0 and STI R1, #1 to the next address, with the abort due right
after both steps. -/
theorem witness_store_then_fetch : let s : State := { start 0x3200 with abortIn := some 2 }
    s.runState = .running ∧ s.noAbortWithin 2 ∧ s.memReadRaw s.pc = encode (.st .r1 0) ∧
    (Instr.st .r1 0).store (s.tick.setPc (s.pc + 1)) = some (.r1, s.pc + 1) ∧
    s.pc ≠ s.params.kbsrAddr ∧ s.pc + 1 ≠ s.params.kbsrAddr :=
  ⟨rfl, fun k h => by cases h; decide, by decide, by decide, by decide, by decide⟩

theorem witness_str_and_sti_then_fetch :
    (let s := (start 0x7280).setReg .r2 0x3001
     s.memReadRaw s.pc = encode (.str .r1 .r2 0) ∧
     (Instr.str .r1 .r2 0).store (s.tick.setPc (s.pc + 1)) = some (.r1, s.pc + 1)) ∧
    (let s := (start 0xB201).memWrite 0x3002 0x3001
     s.memReadRaw s.pc = encode (.sti .r1 1) ∧
     (Instr.sti .r1 1).store (s.tick.setPc (s.pc + 1)) = some (.r1, s.pc + 1)) := by decide

/-- AbortFallsBetweenSteps: an abort that is due in each state that has not ended, and a state that has. -/
theorem witness_abort : (∀ r ∈ [RunState.running, .waitInput .getc, .stringOut .putsp 0xFFFF],
      let s : State := { State.reset with runState := r, abortIn := some 0 }
      s.runState.terminal = false ∧ s.abortDue = true) ∧
    ({ State.reset with runState := .halted } : State).runState.terminal = true := by decide

/-- ProgressOfEachRunState: each run state with no abort due, the wait with a character coming. -/
theorem witness_progress : (start 0).abortDue = false ∧ (start 0).runState = .running ∧
    (let s : State := { State.reset with runState := .stringOut .puts 0xFFFF }
     s.abortDue = false ∧ s.runState = .stringOut .puts 0xFFFF) ∧
    (let s : State := { State.reset with runState := .waitInput .getc, input := [none, some 0x41] }
     s.abortDue = false ∧ s.runState = .waitInput .getc ∧ ∃ c ∈ s.input, c.isSome) := by decide

/-- StepKeepsTheInvariant, OutputTraceOnlyGrows, ResetLeavesTheListedValues: a step of a state that meets the invariant. -/
theorem witness_step_next : (start 0x1065).Inv ∧ (∃ t, step (start 0x1065) = .next t) ∧
    ∃ t, boot [some [0x30, 0x00]] = some t := ⟨witness_inv, ⟨_, rfl⟩, ⟨_, rfl⟩⟩

/-- OnlyListedRegistersAreWritten, OnlyControlTransfersWritePc, OnlyListedOperationsSetCond: an instruction with, and one
without, a destination that sets COND; a completion of GETC; a step outside RUNNING. -/
theorem witness_exec_next : (∃ t, exec (.addImm .r7 .r0 31) State.reset = .next t) ∧
    (Instr.addImm .r7 .r0 31).flagSource = some .r7 ∧ (Instr.addImm .r7 .r0 31).transfersControl = false ∧
    (∃ t, exec (.st .r0 0x1FF) State.reset = .next t) ∧ (Instr.st .r0 0x1FF).flagSource = none ∧
    (∃ t, waitStep .inEcho { State.reset with input := [some 0xFFFF] } = .next t) ∧
    (∃ t, step { State.reset with runState := .waitInput .getc, input := [some 0xFFFF] } = .next t) :=
  ⟨⟨_, rfl⟩, rfl, rfl, ⟨_, rfl⟩, rfl, ⟨_, rfl⟩, ⟨_, rfl⟩⟩

/-- OnlyReservedOpcodesAndUnknownTrapsFault: its hypothesis, with instructions that fault and do not. -/
theorem witness_not_yet_faulted : State.reset.runState.isFaulted = false ∧ (Instr.res 0).faults .nop = true ∧
    (Instr.trap 0 0x26).faults .fault = true ∧ (Instr.trap 0 0x26).faults .nop = false := by decide

/-- SetccFollowsTheSign: the ends of its three ranges. -/
theorem witness_setcc : 32768 ≤ (0x8000 : Word).toNat ∧ (0 : Word).toNat = 0 ∧ (0 < (1 : Word).toNat ∧ (1 : Word).toNat < 32768) ∧
    (0 < (0x7FFF : Word).toNat ∧ (0x7FFF : Word).toNat < 32768) := by decide

/-- CanonicalMemoryIsUnique: a memory with the lowest and the highest address. -/
theorem witness_canonical : Memory.wf [(0, 1), (0xFFFF, 0xFFFF)] = true := by decide

/-- MemReadPollsOnlyAtKeyboardStatus: the keyboard data address, and the neighbours of the status address. -/
theorem witness_read_elsewhere :
    [(0xFE02 : Word), 0xFDFF, 0xFE01].all (fun a => a != State.reset.params.kbsrAddr) = true := by decide

/-- KeyboardPollLatchesOrClears: a ready device, and one that is not. -/
theorem witness_poll : State.reset.params.kbsrAddr ≠ State.reset.params.kbdrAddr ∧
    (State.pollDevice { State.reset with input := [some 0xFFFF] }).1 = some 0xFFFF ∧
    (State.pollDevice { State.reset with input := [none] }).1 = none := by decide

/-- EachAnswerIsConsumedOnce: each form of the coming answers. -/
theorem witness_answers : (let s : State := { State.reset with input := [none, some 0x41, some 0x42] }
      s.input = none :: [some 0x41, some 0x42] ∧ s.input = List.replicate 1 none ++ some 0x41 :: [some 0x42]) ∧
    State.reset.input = [] ∧ State.reset.input = List.replicate 0 none := by decide

/-- The layouts of the instruction statements: a word under each mask, its free bits all at one. -/
theorem witness_masks : (0x1FDF : Word) &&& 0xF020 = 0x1000 ∧ (0x1FFF : Word) &&& 0xF020 = 0x1020 ∧
    (0x5FDF : Word) &&& 0xF020 = 0x5000 ∧ (0x5FFF : Word) &&& 0xF020 = 0x5020 ∧ (0x4FFF : Word) &&& 0xF800 = 0x4800 ∧
    (0x47FF : Word) &&& 0xF800 = 0x4000 ∧
    [(0x0000 : Word), 0x2000, 0x3000, 0x6000, 0x7000, 0x8000, 0x9000, 0xA000, 0xB000, 0xC000, 0xD000, 0xE000, 0xF000].all
      (fun w => (w ||| 0x0FFF) &&& 0xF000 == w) = true := by decide

/-- BranchTestsMaskAgainstCond: a COND of one value. -/
theorem witness_br : condOneHot State.reset.cond = true ∧ (0b111 : BitVec 3) &&& State.reset.cond ≠ 0 := by decide

/-- JsrrLinksAndJumpsInEitherOrder: a base other than R7, and R7 itself. -/
theorem witness_jsrr : Reg.r6 ≠ .r7 ∧ Reg.r7 = .r7 := by decide

/-- LdLoadsPcRelative, LdrLoadsBaseOffset, LdiLoadsThroughThePointer, StiStoresThroughThePointer: addresses that do not
poll, the pointer's target too. -/
theorem witness_no_poll : let s := start 0x0000
    s.pc + (0x1FF : BitVec 9).signExtend 16 ≠ s.params.kbsrAddr ∧
    s.memReadRaw (s.pc + (0x1FF : BitVec 9).signExtend 16) ≠ s.params.kbsrAddr ∧
    s.reg .r0 + (0x20 : BitVec 6).signExtend 16 ≠ s.params.kbsrAddr := by decide

/-- GetcCompletesWithTheCharacter, InCompletesWithTheEcho: a wait with a character coming. -/
theorem witness_wait (k : InputKind) :
    let s : State := { State.reset with runState := .waitInput k, input := [none, some 0xFFFF] }
    s.runState = .waitInput k ∧ s.abortDue = false ∧
    s.tick.awaitDevice = some (0xFFFF, { s.tick with input := [] }) := ⟨rfl, rfl, rfl⟩

/-- StringStepWritesOneWord: the terminator, and both ends of PUTSP's two cases, for either routine at 0xFFFF. -/
theorem witness_string_step (k : StringKind) (w : Word) :
    let s : State := { State.reset.memWrite 0xFFFF w with runState := .stringOut k 0xFFFF }
    s.runState = .stringOut k 0xFFFF ∧ s.abortDue = false ∧ s.memReadRaw 0xFFFF = w :=
  ⟨rfl, rfl, State.memReadRaw_memWrite_self State.reset 0xFFFF w⟩

theorem witness_string_words : (0x0000 : Word) = 0 ∧ ((0x00FF : Word) ≠ 0 ∧ (0x00FF : Word).toNat < 256) ∧
    ((0x0100 : Word) ≠ 0 ∧ 256 ≤ (0x0100 : Word).toNat) := by decide

/-- PutsWritesTheWholeString, PutspWritesTheWholeString: V86's "Hi" and the empty string, the abort due right after. -/
theorem witness_whole_string (k : StringKind) :
    let s : State := { (State.reset.memWrite 0x4000 0x0048).memWrite 0x4001 0x0069 with
      runState := .stringOut k 0x4000, abortIn := some 3 }
    s.runState = .stringOut k 0x4000 ∧ s.holdsString 0x4000 [0x0048, 0x0069] ∧ s.holdsString 0x4002 [] ∧
    s.noAbortWithin ([(0x0048 : Word), 0x0069].length + 1) :=
  ⟨rfl, ⟨by decide, by rfl, by decide, by rfl, by rfl⟩, by rfl, fun j h => by cases h; decide⟩

/-- A memory in which every word is 1. Irreducible, so that no check lists its 65536 entries. -/
@[irreducible] def onesMemory : Memory :=
  (List.range 65536).map fun a => (a, 1)

theorem lookup_map_of_mem (a : Nat) (l : List Nat) (h : a ∈ l) :
    Memory.lookup a (l.map fun b => (b, (1 : Word))) = 1 := by
  induction l with
  | nil => simp at h
  | cons b l ih =>
    by_cases hb : a = b
    · simp [Memory.lookup, hb]
    · simpa [Memory.lookup, hb] using ih (by simpa [hb] using h)

/-- StringWithoutTerminatorNeverEnds: no zero word anywhere. -/
theorem witness_no_terminator (k : StringKind) (n : Nat) :
    let s : State := { State.reset with runState := .stringOut k 0xFFFF, mem := onesMemory }
    s.runState = .stringOut k 0xFFFF ∧ (∀ b, s.memReadRaw b ≠ 0) ∧ s.noAbortWithin n := by
  refine ⟨rfl, fun b => ?_, fun j h => by cases h⟩
  have h : Memory.lookup b.toNat onesMemory = 1 := by
    unfold onesMemory; exact lookup_map_of_mem _ _ (List.mem_range.mpr b.isLt)
  exact fun h0 => absurd (h.symm.trans h0) (by decide)

/-- HaltWritesTheNoticeAndEnds: a step that leads to HALTED. -/
theorem witness_halted : ∃ t, step (start 0xF025) = .next t ∧ t.runState = .halted := ⟨_, rfl, rfl⟩

/-- GetcCompletesWithTheCharacter, InCompletesWithTheEcho: an abort due during the wait. -/
theorem witness_wait_abort (k : InputKind) :
    let s : State := { State.reset with runState := .waitInput k, abortIn := some 0 }
    s.runState = .waitInput k ∧ s.abortDue = true := ⟨rfl, rfl⟩

/-- UnknownVectorFollowsThePolicy: the vectors next to the six defined ones, and both policies. -/
theorem witness_unknown_vector : (0x1F : BitVec 8).toNat < 0x20 ∧ 0x25 < (0x26 : BitVec 8).toNat ∧
    State.reset.params.unknownTrapPolicy = .fault ∧
    ({ State.reset with params := { Params.default with unknownTrapPolicy := .nop } } : State).params.unknownTrapPolicy =
      .nop := by decide

/-- RunStartsOnlyIfEveryImageLoads: a boot that starts, and each way not to (none, unopened, too short). -/
theorem witness_boot : (∃ t, boot [some [0x30, 0x00]] = some t) ∧ boot [] = none ∧ boot [none] = none ∧
    boot [some [0x30, 0x00], some [0x30]] = none := ⟨⟨_, rfl⟩, rfl, rfl, rfl⟩

end Sys2Proof.Tests
end

namespace Sys2Proof.Machine

/-- The bits of a sign extension (R9, R67): the field's own bits, then its sign bit, and none from bit 16 on. -/
theorem getLsbD_sext {n : Nat} (v : BitVec n) (i : Nat) :
    (sext v).getLsbD i = (decide (i < 16) && if i < n then v.getLsbD i else v.msb) :=
  BitVec.getLsbD_signExtend ..

/-- Settles O5: the sign bit that `getLsbD_sext` puts above the field is the field's bit `n - 1`. -/
theorem sextCopiesTheHighBit : Obligations.SextCopiesTheHighBit := by
  intro n v i _ _ hi
  rw [getLsbD_sext, v.msb_eq_getLsbD_last, decide_eq_true hi, Bool.true_and]

end Sys2Proof.Machine

/-! ## Bytes before the output trace (R28)

Each operation commutes with putting bytes before the trace. Where an operation neither branches on the state nor
appends to the trace, the two sides are the same record, and the proof is `rfl`. -/

namespace Sys2Proof.Machine

section PrefixOutput

variable (bs : List Byte) (s : State)

@[simp] theorem prefixOutput_pc : (s.prefixOutput bs).pc = s.pc := rfl
@[simp] theorem prefixOutput_runState : (s.prefixOutput bs).runState = s.runState := rfl
@[simp] theorem prefixOutput_memReadRaw (a : Word) : (s.prefixOutput bs).memReadRaw a = s.memReadRaw a := rfl
@[simp] theorem prefixOutput_input : (s.prefixOutput bs).input = s.input := rfl
@[simp] theorem prefixOutput_inputDraws : (s.prefixOutput bs).inputDraws = s.inputDraws := rfl
@[simp] theorem prefixOutput_abortDue : (s.prefixOutput bs).abortDue = s.abortDue := rfl
@[simp] theorem prefixOutput_params : (s.prefixOutput bs).params = s.params := rfl
@[simp] theorem prefixOutput_pcRelative {n : Nat} (off : BitVec n) :
    (s.prefixOutput bs).pcRelative off = s.pcRelative off := rfl

/-- The one operation that touches the trace appends at its other end. -/
theorem emit_prefixOutput (out : List Byte) : (s.prefixOutput bs).emit out = (s.emit out).prefixOutput bs := by
  simp [State.prefixOutput, State.emit]

theorem emit_setRunState_prefixOutput (out : List Byte) (r : RunState) :
    ((s.prefixOutput bs).emit out).setRunState r = ((s.emit out).setRunState r).prefixOutput bs := by
  rw [emit_prefixOutput]; rfl

theorem pollDevice_prefixOutput :
    (s.prefixOutput bs).pollDevice = (s.pollDevice.1, s.pollDevice.2.prefixOutput bs) := by
  unfold State.pollDevice
  rw [prefixOutput_input]
  cases s.input <;> rfl

theorem keyboardPoll_prefixOutput : (s.prefixOutput bs).keyboardPoll = s.keyboardPoll.prefixOutput bs := by
  unfold State.keyboardPoll
  rw [pollDevice_prefixOutput]
  rcases s.pollDevice with ⟨_ | c, u⟩ <;> rfl

theorem afterRead_prefixOutput (a : Word) : (s.prefixOutput bs).afterRead a = (s.afterRead a).prefixOutput bs := by
  unfold State.afterRead
  rw [prefixOutput_params]
  split_ifs
  · exact keyboardPoll_prefixOutput bs s
  · rfl

theorem memRead_prefixOutput (a : Word) :
    (s.prefixOutput bs).memRead a = ((s.memRead a).1, (s.memRead a).2.prefixOutput bs) := by
  unfold State.memRead
  rw [afterRead_prefixOutput, prefixOutput_memReadRaw]

theorem fetch_prefixOutput : fetch (s.prefixOutput bs) = ((fetch s).1, (fetch s).2.prefixOutput bs) := by
  unfold fetch
  rw [prefixOutput_pc, memRead_prefixOutput]
  rfl

theorem loadFrom_prefixOutput (ea : Word) (dr : Reg) :
    loadFrom ea dr (s.prefixOutput bs) = (loadFrom ea dr s).prefixOutput bs := by
  rw [loadFrom_eq, afterRead_prefixOutput]
  rfl

theorem execLdi_prefixOutput (dr : Reg) (off : BitVec 9) :
    execLdi dr off (s.prefixOutput bs) = mapNext (State.prefixOutput bs) (execLdi dr off s) := by
  unfold execLdi
  rw [prefixOutput_pcRelative, memRead_prefixOutput]
  exact congrArg Host.Outcome.next (loadFrom_prefixOutput bs _ _ dr)

theorem execSti_prefixOutput (sr : Reg) (off : BitVec 9) :
    execSti sr off (s.prefixOutput bs) = mapNext (State.prefixOutput bs) (execSti sr off s) := by
  unfold execSti
  rw [prefixOutput_pcRelative, memRead_prefixOutput]
  rfl

theorem execBr_prefixOutput (nzp : BitVec 3) (off : BitVec 9) :
    execBr nzp off (s.prefixOutput bs) = mapNext (State.prefixOutput bs) (execBr nzp off s) := by
  unfold execBr
  rw [show (s.prefixOutput bs).branchTaken nzp = s.branchTaken nzp from rfl]
  split_ifs <;> rfl

theorem callThrough_prefixOutput (order : LinkOrder) (b : Reg) :
    callThrough order b (s.prefixOutput bs) = (callThrough order b s).prefixOutput bs := by
  cases order <;> rfl

theorem issueOut_prefixOutput : issueOut (s.prefixOutput bs) = (issueOut s).prefixOutput bs :=
  emit_prefixOutput bs s _

theorem issueIn_prefixOutput : issueIn (s.prefixOutput bs) = (issueIn s).prefixOutput bs :=
  emit_setRunState_prefixOutput bs s _ _

theorem issueHalt_prefixOutput : issueHalt (s.prefixOutput bs) = (issueHalt s).prefixOutput bs :=
  emit_setRunState_prefixOutput bs s _ _

theorem unknownTrap_prefixOutput (policy : TrapPolicy) (ir : Word) :
    unknownTrap policy ir (s.prefixOutput bs) = (unknownTrap policy ir s).prefixOutput bs := by
  cases policy <;> rfl

theorem trapDispatch_prefixOutput (v : BitVec 8) (ir : Word) :
    trapDispatch v ir (s.prefixOutput bs) = (trapDispatch v ir s).prefixOutput bs := by
  unfold trapDispatch
  split_ifs
  · rfl
  · exact issueOut_prefixOutput bs s
  · rfl
  · exact issueIn_prefixOutput bs s
  · rfl
  · exact issueHalt_prefixOutput bs s
  · exact unknownTrap_prefixOutput bs s _ ir

/-- No instruction's meaning reads the trace. -/
theorem exec_prefixOutput (i : Instr) :
    exec i (s.prefixOutput bs) = mapNext (State.prefixOutput bs) (exec i s) := by
  cases i with
  | addReg | addImm | andReg | andImm | notReg | lea => rfl
  | br nzp off => exact execBr_prefixOutput bs s nzp off
  | ret | jmp | jsr => rfl
  | jsrr _ b _ => exact congrArg Host.Outcome.next (callThrough_prefixOutput bs s _ b)
  | ld dr _ | ldr dr _ _ => exact congrArg Host.Outcome.next (loadFrom_prefixOutput bs s _ dr)
  | ldi dr off => exact execLdi_prefixOutput bs s dr off
  | st | str => rfl
  | sti sr off => exact execSti_prefixOutput bs s sr off
  | getc | puts | putsp => rfl
  | out => exact congrArg Host.Outcome.next (issueOut_prefixOutput bs s.link)
  | inEcho => exact congrArg Host.Outcome.next (issueIn_prefixOutput bs s.link)
  | halt => exact congrArg Host.Outcome.next (issueHalt_prefixOutput bs s.link)
  | trap _ v => exact congrArg Host.Outcome.next (trapDispatch_prefixOutput bs s.link v _)
  | rti | res => rfl

theorem awaitDevice_prefixOutput :
    (s.prefixOutput bs).awaitDevice = s.awaitDevice.map fun p => (p.1, p.2.prefixOutput bs) := by
  unfold State.awaitDevice
  rw [prefixOutput_input, prefixOutput_inputDraws]
  cases firstCharacter s.input with
  | some p => rfl
  | none => cases Config.freeInput s.inputDraws <;> rfl

theorem completeInput_prefixOutput (k : InputKind) (c : Word) :
    completeInput k c (s.prefixOutput bs) = (completeInput k c s).prefixOutput bs := by
  unfold completeInput
  rw [emit_prefixOutput]
  rfl

theorem waitStep_prefixOutput (k : InputKind) :
    waitStep k (s.prefixOutput bs) = mapNext (State.prefixOutput bs) (waitStep k s) := by
  unfold waitStep
  rw [awaitDevice_prefixOutput]
  cases s.awaitDevice with
  | none => rfl
  | some p => exact congrArg Host.Outcome.next (completeInput_prefixOutput bs p.2 k p.1)

theorem stringStep_prefixOutput (k : StringKind) (a : Word) :
    stringStep k a (s.prefixOutput bs) = (stringStep k a s).prefixOutput bs := by
  rcases stringStep_cases k a s with ⟨hw, h⟩ | ⟨hw, h⟩
  · rw [h]
    exact if_pos hw
  · rw [h]
    exact (if_neg hw).trans (emit_setRunState_prefixOutput bs s _ _)

theorem hostAbort_prefixOutput : hostAbort (s.prefixOutput bs) = (hostAbort s).prefixOutput bs := by
  unfold hostAbort
  rw [prefixOutput_runState]
  split_ifs <;> rfl

theorem stepInstruction_prefixOutput :
    stepInstruction (s.prefixOutput bs) = mapNext (State.prefixOutput bs) (stepInstruction s) := by
  unfold stepInstruction
  rw [fetch_prefixOutput]
  exact exec_prefixOutput bs _ _

end PrefixOutput

/-- Settles O18, by the run states: in each one the step is the host's abort or an operation that commutes with
`State.prefixOutput`. -/
theorem outputTraceIsNeverRead : Obligations.OutputTraceIsNeverRead := by
  intro s bs
  have habort := congrArg (Host.Outcome.next (φ := Fault) (ρ := Refusal)) (hostAbort_prefixOutput bs s)
  unfold step
  rw [prefixOutput_runState, prefixOutput_abortDue]
  cases s.runState with
  | halted | faulted | aborted => rfl
  | running =>
    split_ifs
    · exact habort
    · exact stepInstruction_prefixOutput bs s.tick
  | waitInput k =>
    split_ifs
    · exact habort
    · exact waitStep_prefixOutput bs s.tick k
  | stringOut k a =>
    split_ifs
    · exact habort
    · exact congrArg Host.Outcome.next (stringStep_prefixOutput bs s.tick k a)

/-! ## Growth of the output trace (R28) -/

/-- A step that goes on leads to a state that its state evolves to. -/
theorem step_evolves {s t : State} (h : step s = .next t) : Evolves s t := by
  rcases step_cases h with ⟨hterm, -, rfl⟩ | ⟨-, -, hexec⟩ | ⟨k, -, -, hwait⟩ | ⟨k, a, -, -, rfl⟩
  · simpa [hostAbort, hterm] using Evolves.setRunState s .aborted
  · obtain ⟨u, hu, hev⟩ := exec_evolves (decode (fetch s.tick).1) (fetch s.tick).2
    cases hu.symm.trans hexec
    exact (((Evolves.tick s).trans (.afterRead _ _)).trans (.setPc _ _)).trans hev
  · obtain ⟨c, u, hu, rfl⟩ := waitStep_cases hwait
    exact ((((Evolves.tick s).trans (.awaitDevice hu)).trans (.emit _ _)).trans (.setRegCC _ _ _)).trans
      (.setRunState _ _)
  · rcases stringStep_cases k a s.tick with ⟨-, h⟩ | ⟨-, h⟩
    · rw [h]; exact (Evolves.tick s).trans (.setRunState _ _)
    · rw [h]; exact ((Evolves.tick s).trans (.emit _ _)).trans (.setRunState _ _)

/-- Settles O17: appending to the output is a field of `Evolves`. -/
theorem outputTraceOnlyGrows : Obligations.OutputTraceOnlyGrows :=
  ⟨rfl, fun _ _ h => (step_evolves h).output⟩

/-! ## What each operation writes of R0 to R7, PC and COND (R22, R23, R26) -/

/-- What instruction `i`, run from `s`, writes of the registers, PC and COND when it answers `t`. -/
structure WritesAsListed (i : Instr) (s t : State) : Prop where
  regs : KeepsRegs s t i.written
  pc : i.transfersControl = false → t.pc = s.pc
  cond : ∀ r, i.flagSource = some r → t.cond = setcc (t.reg r)
  cond_kept : i.flagSource = none → t.cond = s.cond

namespace WritesAsListed

variable {i : Instr} {s t : State}

/-- An instruction that ends in a flag-setting register write, after reads that may have polled. -/
theorem of_setRegCC {u : State} {dr : Reg} {v : Word} (hw : i.written = [dr]) (hf : i.flagSource = some dr)
    (hregs : u.regs = s.regs) (hpc : u.pc = s.pc) : WritesAsListed i s (u.setRegCC dr v) where
  regs r hr := by
    rw [hw] at hr
    rw [keepsRegs_setRegCC u dr v r hr]
    exact keepsRegs_of_regs_eq hregs [dr] r hr
  pc _ := hpc
  cond r hr := by
    obtain rfl : dr = r := by simpa [hf] using hr
    rw [setRegCC_cond, setRegCC_reg_self]
  cond_kept h := by simp [hf] at h

/-- An instruction that writes R7 only, as the calls and the traps do. -/
theorem of_link (hw : i.written = [.r7]) (hf : i.flagSource = none) (hregs : t.regs = s.link.regs)
    (hpc : i.transfersControl = false → t.pc = s.pc) (hcond : t.cond = s.cond) : WritesAsListed i s t where
  regs r hr := by
    rw [hw] at hr
    rw [keepsRegs_of_regs_eq hregs [.r7] r hr]
    exact keepsRegs_setReg s .r7 s.pc r hr
  pc := hpc
  cond r hr := by simp [hf] at hr
  cond_kept _ := hcond

/-- An instruction that writes no general register and not COND. -/
theorem of_regs_eq (hf : i.flagSource = none) (hregs : t.regs = s.regs)
    (hpc : i.transfersControl = false → t.pc = s.pc) (hcond : t.cond = s.cond) : WritesAsListed i s t where
  regs := keepsRegs_of_regs_eq hregs _
  pc := hpc
  cond r hr := by simp [hf] at hr
  cond_kept _ := hcond

end WritesAsListed

/-- Each instruction, by what it ends in. -/
theorem exec_writesAsListed (i : Instr) (s : State) : ∃ t, exec i s = .next t ∧ WritesAsListed i s t := by
  cases i with
  | addReg | addImm | andReg | andImm | notReg | lea => exact ⟨_, rfl, .of_setRegCC rfl rfl rfl rfl⟩
  | ld | ldr => exact ⟨_, rfl, .of_setRegCC rfl rfl (s.afterRead_regs _) (s.afterRead_pc _)⟩
  | ldi => exact ⟨_, rfl, .of_setRegCC rfl rfl (by simp) (by simp)⟩
  | br nzp off =>
    refine ⟨_, rfl, ?_⟩
    split <;> exact .of_regs_eq rfl rfl nofun rfl
  | ret | jmp => exact ⟨_, rfl, .of_regs_eq rfl rfl nofun rfl⟩
  | jsr => exact ⟨_, rfl, .of_link rfl rfl rfl nofun rfl⟩
  | jsrr _ b _ =>
    obtain ⟨v, hv⟩ := callThrough_eq s.params.jsrrLinkOrder b s
    refine ⟨_, rfl, ?_⟩
    rw [hv]
    exact .of_link rfl rfl rfl nofun rfl
  | st | str => exact ⟨_, rfl, .of_regs_eq rfl rfl (fun _ => rfl) rfl⟩
  | sti =>
    exact ⟨_, rfl, .of_regs_eq rfl (s.afterRead_regs _) (fun _ => s.afterRead_pc _) (s.afterRead_cond _)⟩
  | getc | out | puts | inEcho | putsp | halt => exact ⟨_, rfl, .of_link rfl rfl rfl (fun _ => rfl) rfl⟩
  | trap x v =>
    obtain ⟨bs, r, h⟩ := trapDispatch_eq v (encode (.trap x v)) s.link
    refine ⟨_, rfl, ?_⟩
    rw [h]
    exact .of_link rfl rfl rfl (fun _ => rfl) rfl
  | rti | res => exact ⟨_, rfl, .of_regs_eq rfl rfl (fun _ => rfl) rfl⟩

theorem writesAsListed_of_exec {i : Instr} {s t : State} (h : exec i s = .next t) : WritesAsListed i s t := by
  obtain ⟨u, hu, hw⟩ := exec_writesAsListed i s
  cases hu.symm.trans h
  exact hw

/-- The completion of GETC or IN writes R0 and COND, and not PC (R144, R149). -/
theorem waitStep_writes {k : InputKind} {s t : State} (h : waitStep k s = .next t) :
    KeepsRegs s t [.r0] ∧ t.cond = setcc (t.reg .r0) ∧ t.pc = s.pc := by
  obtain ⟨c, u, hu, rfl⟩ := waitStep_cases h
  obtain ⟨i, d, rfl⟩ := State.awaitDevice_eq hu
  exact ⟨keepsRegs_setReg s .r0 c, by simp [completeInput, trapReturn], rfl⟩

/-- A string step writes no register, not COND and not PC (R147, R151). -/
theorem stringStep_writes (k : StringKind) (a : Word) (s : State) :
    (stringStep k a s).regs = s.regs ∧ (stringStep k a s).cond = s.cond ∧ (stringStep k a s).pc = s.pc := by
  rcases stringStep_cases k a s with ⟨-, h⟩ | ⟨-, h⟩
  · simp [h]
  · simp [h]

@[simp] theorem hostAbort_pc (s : State) : (hostAbort s).pc = s.pc := by
  unfold hostAbort
  split <;> rfl

/-- Settles O19: the register clause of each of the three kinds of operation. -/
theorem onlyListedRegistersAreWritten : Obligations.OnlyListedRegistersAreWritten := by
  refine ⟨fun i s t h => (writesAsListed_of_exec h).regs, fun k s t h => ?_, fun k a s => ?_⟩
  · obtain ⟨hregs, -, -⟩ := waitStep_writes h
    exact hregs
  · obtain ⟨hregs, -, -⟩ := stringStep_writes k a s
    exact keepsRegs_of_regs_eq hregs []

/-- Outside RUNNING, PC stays: an abort, a completion or a string step (R23, R156). -/
theorem step_pc_of_not_running {s t : State} (h : step s = .next t) (hr : s.runState ≠ .running) : t.pc = s.pc := by
  rcases step_cases h with ⟨-, -, rfl⟩ | ⟨hrun, -, -⟩ | ⟨k, -, -, hwait⟩ | ⟨k, a, -, -, rfl⟩
  · exact hostAbort_pc s
  · exact absurd hrun hr
  · obtain ⟨-, -, hpc⟩ := waitStep_writes hwait
    exact hpc
  · obtain ⟨-, -, hpc⟩ := stringStep_writes k a s.tick
    exact hpc

/-- Settles O20: PC by instruction, by run state, and at the fetch, which sets it to PC† (R61). -/
theorem onlyControlTransfersWritePc : Obligations.OnlyControlTransfersWritePc :=
  ⟨fun _ _ _ h => (writesAsListed_of_exec h).pc, fun _ _ h hr => step_pc_of_not_running h hr, fun _ => rfl⟩

/-- Settles O21: the COND clauses of each of the three kinds of operation. -/
theorem onlyListedOperationsSetCond : Obligations.OnlyListedOperationsSetCond := by
  refine ⟨fun i s t h => ?_, fun k s t h => ?_, fun k a s => ?_⟩
  · have hw := writesAsListed_of_exec h
    exact ⟨hw.cond, hw.cond_kept⟩
  · obtain ⟨-, hcond, -⟩ := waitStep_writes h
    exact hcond
  · obtain ⟨-, hcond, -⟩ := stringStep_writes k a s
    exact hcond

/-! ## Reset and the flags (R24, R25, R32) -/

/-- Settles O16: each field of the invariant is a fact about a closed value. -/
theorem resetMeetsTheInvariant : Obligations.ResetMeetsTheInvariant where
  mem_wf := rfl
  cond_oneHot := rfl
  keyboard_ne := by decide

/-- A boot that starts the run gives the reset state with the images in its memory (R200, R203). -/
theorem boot_eq_some {streams : List (Option (List Byte))} {t : State} (h : boot streams = some t) :
    ∃ m, loadImages streams State.reset.mem = some m ∧ t = { State.reset with mem := m } := by
  cases streams with
  | nil => cases h
  | cons st rest =>
    obtain ⟨m, hm, rfl⟩ := Option.map_eq_some_iff.1 h
    exact ⟨m, hm, rfl⟩

/-- Settles O23: the reset values are read off `State.reset`; a boot is `boot_eq_some`. -/
theorem resetLeavesTheListedValues : Obligations.ResetLeavesTheListedValues := by
  refine ⟨fun r => by cases r <;> rfl, rfl, rfl, rfl, fun _ => rfl, rfl, fun streams t h => ?_⟩
  obtain ⟨m, hm, rfl⟩ := boot_eq_some h
  exact ⟨rfl, hm⟩

/-- Settles O24: the most significant bit of a Word is set exactly from 0x8000 on. -/
theorem setccFollowsTheSign : Obligations.SetccFollowsTheSign := by
  intro v
  have hmsb : v.msb = decide (32768 ≤ v.toNat) := v.msb_eq_decide
  refine ⟨fun h => ?_, fun h => ?_, fun hpos h => ?_⟩
  · simp [setcc, hmsb, h, condNegative]
  · obtain rfl : v = 0 := BitVec.eq_of_toNat_eq h
    rfl
  · have hne : v ≠ 0#16 := by
      rintro rfl
      exact absurd hpos (by decide)
    simp [setcc, hmsb, Nat.not_le.2 h, hne, condPositive]

end Sys2Proof.Machine

/-! ## The invariant (R6, R24, R40) -/

namespace Sys2Proof.Machine

theorem Evolves.inv {s t : State} (h : Evolves s t) (hs : s.Inv) : t.Inv where
  mem_wf := h.mem_wf hs.mem_wf
  cond_oneHot := h.cond_oneHot hs.cond_oneHot
  keyboard_ne := by rw [h.params]; exact hs.keyboard_ne

/-- Settles O15: a step evolves its state, and what a state evolves to keeps the invariant and the parameters. -/
theorem stepKeepsTheInvariant : Obligations.StepKeepsTheInvariant :=
  fun _ _ h => ⟨(step_evolves h).inv, (step_evolves h).params⟩

/-! ## Stores and the next fetch (R56, R209) -/

/-- The opcode field alone selects the decoder's row (R64, R76). -/
theorem decode_of_opcode {w : Word} {op : Opcode} (h : field w 12 4 = op.bits) : decode w = decodeAs op w := by
  rw [decode, h, Opcode.ofBits_bits]

/-- A store's word decodes to that store. -/
theorem decode_encode_of_store {i : Instr} {s : State} {p : Reg × Word} (h : i.store s = some p) :
    decode (encode i) = i := by
  cases i with
  | st sr off =>
    obtain ⟨hop, hsr, hoff⟩ := field_word39 .st sr.bits off
    simp [encode, decode_of_opcode hop, decodeAs, regField, hsr, hoff]
  | sti sr off =>
    obtain ⟨hop, hsr, hoff⟩ := field_word39 .sti sr.bits off
    simp [encode, decode_of_opcode hop, decodeAs, regField, hsr, hoff]
  | str sr baseR off =>
    obtain ⟨hop, hsr, hbase, hoff⟩ := field_word336 .str sr.bits baseR.bits off
    simp [encode, decode_of_opcode hop, decodeAs, regField, hsr, hbase, hoff]
  | _ => cases h

/-- After a store its address reads as its register's word, and PC, the run state and the host's fields are as they
were, whether or not STI's pointer read polled (R126, R127, R128). -/
theorem exec_of_store {i : Instr} {s : State} {sr : Reg} {a : Word} (h : i.store s = some (sr, a)) :
    ∃ t, exec i s = .next t ∧ t.memReadRaw a = s.reg sr ∧ t.pc = s.pc ∧ t.runState = s.runState ∧ KeepsHost s t := by
  cases i with
  | st | str => cases h; exact ⟨_, rfl, State.memReadRaw_memWrite_self .., rfl, rfl, rfl, rfl⟩
  | sti => cases h; exact ⟨_, rfl, by simp, by simp, by simp, by simp, by simp⟩
  | _ => cases h

/-- In RUNNING, away from the keyboard status address, a step executes the word at PC with only PC and the host's
countdown moved (R60, R61). -/
theorem step_of_pc_ne_kbsr {s : State} (hr : s.runState = .running) (ha : s.abortDue = false)
    (hpc : s.pc ≠ s.params.kbsrAddr) :
    step s = exec (decode (s.memReadRaw s.pc)) (s.tick.setPc (s.pc + 1)) := by
  have hread : s.tick.afterRead s.pc = s.tick := State.afterRead_of_ne hpc
  simp [step_of_running hr ha, fetch_snd, hread]

/-- Settles O11: the store's own write is the last before the next fetch, so that fetch reads the stored word. -/
theorem storeIsSeenByTheNextFetch : Obligations.StoreIsSeenByTheNextFetch := by
  intro s i sr hr habort hword hstore hpc hnext
  obtain ⟨hdue, hlater⟩ := abortDue_of_noAbortWithin habort
  obtain ⟨hdue', -⟩ := abortDue_of_noAbortWithin hlater
  obtain ⟨t, hexec, hstored, htpc, htrun, htabort, htparams⟩ := exec_of_store hstore
  have hstep : step s = .next t := by
    rw [step_of_pc_ne_kbsr hr hdue hpc, hword, decode_encode_of_store hstore, hexec]
  have htdue : t.abortDue = false := by rwa [State.abortDue, htabort]
  have htne : t.pc ≠ t.params.kbsrAddr := by rwa [htpc, htparams]
  refine ⟨t, hstep, htpc, ?_⟩
  have hpc2 : s.pc + 1 + 1 = s.pc + 2 := by bv_omega
  rw [step_of_pc_ne_kbsr (htrun.trans hr) htdue htne, htpc, State.setPc_pc, hstored, hpc2]
  rfl

/-! ## The word array (R40 to R43) -/

/-- Settles O25: the read is `State.memReadRaw_memWrite`, and every field but the memory is the old one. -/
theorem writeChangesExactlyOneWord : Obligations.WriteChangesExactlyOneWord :=
  fun s a v b => ⟨s.memReadRaw_memWrite a b v, keepsRegs_of_regs_eq rfl [], rfl, rfl, ⟨rfl, rfl, rfl, rfl⟩, rfl, rfl⟩

namespace Memory

theorem wfFrom_cons_iff {lo b : Nat} {w : Word} {rest : Memory} :
    wfFrom lo ((b, w) :: rest) = true ↔ lo ≤ b ∧ b < 65536 ∧ w ≠ unlisted ∧ wfFrom (b + 1) rest = true := by
  simp [wfFrom, and_assoc]

theorem lookup_cons_self (b : Nat) (w : Word) (rest : Memory) : lookup b ((b, w) :: rest) = w :=
  if_pos rfl

theorem lookup_cons_of_ne {a b : Nat} (h : a ≠ b) (w : Word) (rest : Memory) :
    lookup a ((b, w) :: rest) = lookup a rest :=
  if_neg h

/-- The first listed address of a canonical memory is its lowest address that does not read as unlisted. -/
theorem head_le_of_lookup_ne {lo a b : Nat} {w : Word} {rest : Memory} (hm : wfFrom lo ((b, w) :: rest) = true)
    (ha : lookup a ((b, w) :: rest) ≠ unlisted) : b ≤ a := by
  obtain ⟨-, hb, hw, hrest⟩ := wfFrom_cons_iff.1 hm
  by_contra hlt
  exact ha (lookup_of_wfFrom (Nat.lt_of_not_le hlt) (wfFrom_cons_iff.2 ⟨le_rfl, hb, hw, hrest⟩))

/-- Canonical memories that read alike are equal: their heads are at the same lowest address, and below the head
their tails read alike too. -/
theorem eq_of_lookup_eq {lo : Nat} {m n : Memory} (hm : wfFrom lo m = true) (hn : wfFrom lo n = true)
    (h : ∀ a < 65536, lookup a m = lookup a n) : m = n := by
  induction m generalizing lo n with
  | nil =>
    cases n with
    | nil => rfl
    | cons e rest =>
      obtain ⟨-, hc, hx, -⟩ := wfFrom_cons_iff.1 hn
      exact absurd ((lookup_cons_self ..).symm.trans (h _ hc).symm) hx
  | cons e rest ih =>
    obtain ⟨b, w⟩ := e
    obtain ⟨-, hb, hw, hrest⟩ := wfFrom_cons_iff.1 hm
    have hreadB : lookup b n = w := (h b hb).symm.trans (lookup_cons_self ..)
    cases n with
    | nil => exact absurd hreadB.symm hw
    | cons e' rest' =>
      obtain ⟨c, x⟩ := e'
      obtain ⟨-, hc, hx, hrest'⟩ := wfFrom_cons_iff.1 hn
      have hreadC : lookup c ((b, w) :: rest) = x := (h c hc).trans (lookup_cons_self ..)
      have hbc : b = c := Nat.le_antisymm
        (head_le_of_lookup_ne hm (by rwa [hreadC])) (head_le_of_lookup_ne hn (by rwa [hreadB]))
      subst hbc
      have hwx : w = x := (lookup_cons_self ..).symm.trans hreadC
      have htails : ∀ a < 65536, lookup a rest = lookup a rest' := by
        intro a ha
        by_cases hab : a = b
        · subst hab
          rw [lookup_of_wfFrom (Nat.lt_succ_self a) hrest, lookup_of_wfFrom (Nat.lt_succ_self a) hrest']
        · have := h a ha
          rwa [lookup_cons_of_ne hab, lookup_cons_of_ne hab] at this
      rw [hwx, ih hrest hrest' htails]

end Memory

/-- Settles O26: every address of the word array is the number of some Word. -/
theorem canonicalMemoryIsUnique : Obligations.CanonicalMemoryIsUnique := by
  intro m n hm hn h
  refine Memory.eq_of_lookup_eq hm hn fun a ha => ?_
  have hread := h (BitVec.ofNat 16 a)
  rwa [Memory.read, Memory.read, BitVec.toNat_ofNat, Nat.mod_eq_of_lt ha] at hread

/-! ## The polling read and the keyboard (R44 to R48) -/

@[simp] theorem State.afterRead_kbsrAddr (s : State) : s.afterRead s.params.kbsrAddr = s.keyboardPoll :=
  if_pos rfl

/-- Settles O27: the two branches of `State.afterRead`. -/
theorem memReadPollsOnlyAtKeyboardStatus : Obligations.MemReadPollsOnlyAtKeyboardStatus :=
  fun s => ⟨fun _ h => State.memRead_of_ne h, by rw [State.memRead, s.afterRead_kbsrAddr]⟩

@[simp] theorem State.pollDevice_memReadRaw (s : State) (a : Word) :
    s.pollDevice.2.memReadRaw a = s.memReadRaw a := by
  obtain ⟨i, d, h⟩ := s.pollDevice_eq
  rw [h]; rfl

/-- A ready device: the status is set and the character latched (R46, D9). -/
theorem State.keyboardPoll_of_ready {s : State} {c : Word} (h : s.pollDevice.1 = some c) :
    s.keyboardPoll = (s.pollDevice.2.memWrite s.params.kbsrAddr 0x8000).memWrite s.params.kbdrAddr c := by
  rcases s.keyboardPoll_cases with ⟨c', hc, hpoll⟩ | ⟨hnone, -⟩
  · cases hc.symm.trans h; exact hpoll
  · cases hnone.symm.trans h

/-- A device that is not ready: the status is cleared (R46, D9). -/
theorem State.keyboardPoll_of_not_ready {s : State} (h : s.pollDevice.1 = none) :
    s.keyboardPoll = s.pollDevice.2.memWrite s.params.kbsrAddr 0x0000 := by
  rcases s.keyboardPoll_cases with ⟨c, hc, -⟩ | ⟨-, hpoll⟩
  · cases hc.symm.trans h
  · exact hpoll

theorem State.keyboardPoll_words_of_ready {s : State} {c : Word} (hne : s.params.kbsrAddr ≠ s.params.kbdrAddr)
    (h : s.pollDevice.1 = some c) :
    s.keyboardPoll.memReadRaw s.params.kbsrAddr = 0x8000 ∧ s.keyboardPoll.memReadRaw s.params.kbdrAddr = c := by
  simp [State.keyboardPoll_of_ready h, State.memReadRaw_memWrite, hne]

theorem State.keyboardPoll_status_of_not_ready {s : State} (h : s.pollDevice.1 = none) :
    s.keyboardPoll.memReadRaw s.params.kbsrAddr = 0x0000 := by
  rw [State.keyboardPoll_of_not_ready h, State.memReadRaw_memWrite_self]

theorem keepsMem_keyboardPoll_of_not_ready {s : State} (h : s.pollDevice.1 = none) :
    KeepsMem s s.keyboardPoll [s.params.kbsrAddr] := by
  intro a ha
  rw [State.keyboardPoll_of_not_ready h, keepsMem_memWrite _ _ _ a ha, State.pollDevice_memReadRaw]

/-- Whatever the answer, the poll writes at most the two keyboard words. -/
theorem keepsMem_keyboardPoll (s : State) :
    KeepsMem s s.keyboardPoll [s.params.kbsrAddr, s.params.kbdrAddr] := by
  intro a ha
  obtain ⟨hsr, hdr⟩ : a ≠ s.params.kbsrAddr ∧ a ≠ s.params.kbdrAddr := by simpa using ha
  cases h : s.pollDevice.1 with
  | some c => simp [State.keyboardPoll_of_ready h, State.memReadRaw_memWrite, hsr, hdr]
  | none => exact keepsMem_keyboardPoll_of_not_ready h a (by simpa using hsr)

/-- Settles O28: the words by the device's answer; the rest of the state by `State.keyboardPoll_eq`. -/
theorem keyboardPollLatchesOrClears : Obligations.KeyboardPollLatchesOrClears := by
  intro s hne
  refine ⟨fun c h => State.keyboardPoll_words_of_ready hne h,
    fun h => ⟨State.keyboardPoll_status_of_not_ready h, keepsMem_keyboardPoll_of_not_ready h⟩,
    keepsMem_keyboardPoll s, ?_⟩
  obtain ⟨m, i, d, hpoll, -⟩ := s.keyboardPoll_eq
  rw [hpoll]
  exact ⟨keepsRegs_of_regs_eq rfl [], rfl, rfl, rfl, rfl, rfl, rfl⟩

/-- A placed answer is the one the poll takes (R155). -/
theorem State.pollDevice_of_input {s : State} {a : Option Word} {later : List (Option Word)}
    (h : s.input = a :: later) : s.pollDevice = (a, { s with input := later }) := by
  rw [State.pollDevice, h]

theorem State.keyboardPoll_input (s : State) : s.keyboardPoll.input = s.pollDevice.2.input := by
  rcases s.keyboardPoll_cases with ⟨c, -, h⟩ | ⟨-, h⟩
  · rw [h]; rfl
  · rw [h]; rfl

/-- In RUNNING, at the keyboard status address, a step executes the status word the poll leaves (R48, D10). -/
theorem step_of_pc_eq_kbsr {s : State} (hr : s.runState = .running) (ha : s.abortDue = false)
    (hpc : s.pc = s.params.kbsrAddr) :
    step s = exec (decode (s.tick.keyboardPoll.memReadRaw s.params.kbsrAddr))
      (s.tick.keyboardPoll.setPc (s.pc + 1)) := by
  have hread : s.tick.afterRead s.pc = s.tick.keyboardPoll := by rw [hpc]; exact s.tick.afterRead_kbsrAddr
  rw [step_of_running hr ha, fetch_fst, State.memRead_fst, fetch_snd, State.tick_pc, hread, hpc]

/-- A BR whose mask is empty is a no-operation (R110). -/
theorem exec_br_zero (off : BitVec 9) (s : State) : exec (.br 0 off) s = .next s := by
  simp [exec, execBr, State.branchTaken]

/-- Settles O9: the status word 0x8000 is RTI, and 0x0000 is a BR that is never taken. -/
theorem fetchFromKeyboardStatusPolls : Obligations.FetchFromKeyboardStatusPolls := by
  intro s rest hinv hr hdue hpc
  have hstep := step_of_pc_eq_kbsr hr hdue hpc
  have hinput : ∀ a, s.input = a :: rest → s.tick.keyboardPoll.input = rest := fun a h => by
    rw [State.keyboardPoll_input, State.pollDevice_of_input (s := s.tick) h]
  refine ⟨fun c hc => ?_, fun hnone => ?_⟩
  · have hready : s.tick.pollDevice.1 = some c := by rw [State.pollDevice_of_input (s := s.tick) hc]
    obtain ⟨hstatus, hdata⟩ := State.keyboardPoll_words_of_ready (s := s.tick) hinv.keyboard_ne hready
    have hrti : decode 0x8000 = .rti 0 := by decide
    rw [← State.tick_params, hstatus, hrti] at hstep
    refine ⟨_, hstep, rfl, hinput _ hc, hdata, hstatus, ?_⟩
    simp [raiseFault, encode, word12, Opcode.bits]
  · have hnot : s.tick.pollDevice.1 = none := by rw [State.pollDevice_of_input (s := s.tick) hnone]
    have hstatus := State.keyboardPoll_status_of_not_ready hnot
    have hbr : decode 0x0000 = .br 0 0 := by decide
    rw [← State.tick_params, hstatus, hbr, exec_br_zero] at hstep
    refine ⟨_, hstep, rfl, hinput _ hnone, hstatus, ?_⟩
    obtain ⟨m, i, d, hpoll, -⟩ := s.tick.keyboardPoll_eq
    rw [hpoll]
    exact ⟨hr, rfl, keepsRegs_of_regs_eq rfl []⟩

end Sys2Proof.Machine

/-! ## The decoder and the encoder (R63 to R66, R76) -/

namespace Sys2Proof.Machine

/-- The vectors of R142, one by one. -/
theorem definedVector_iff (v : BitVec 8) :
    definedVector v = true ↔ v = 0x20 ∨ v = 0x21 ∨ v = 0x22 ∨ v = 0x23 ∨ v = 0x24 ∨ v = 0x25 := by
  simp only [definedVector, Bool.and_eq_true, decide_eq_true_eq]
  bv_omega

theorem decodeTrap_of_undefined {v : BitVec 8} (h : definedVector v = false) (x : BitVec 4) :
    decodeTrap x v = .trap x v := by
  have hv := (definedVector_iff v).not.1 (by simp [h])
  simp only [not_or] at hv
  simp only [decodeTrap, hv, if_false]

/-- Every TRAP word reads as a well-formed instruction, and that instruction's word is the TRAP word. -/
theorem wellFormed_and_encode_decodeTrap (x : BitVec 4) (v : BitVec 8) :
    (decodeTrap x v).wellFormed = true ∧ encode (decodeTrap x v) = wordTrap x v := by
  by_cases h : definedVector v = true
  · rcases (definedVector_iff v).1 h with rfl | rfl | rfl | rfl | rfl | rfl <;> exact ⟨rfl, rfl⟩
  · have hv : definedVector v = false := by simpa using h
    rw [decodeTrap_of_undefined hv]
    exact ⟨by simp [Instr.wellFormed, hv], rfl⟩

/-- Settles O1, by the layouts of R66: each field of the word reads back as the operand put there. -/
theorem decodeOfEncodeIsIdentity : Obligations.DecodeOfEncodeIsIdentity := by
  intro i hwf
  cases i with
  | addReg | andReg => simp [encode, decode, decodeAs, regField, field_wordRegister]
  | addImm | andImm => simp [encode, decode, decodeAs, regField, field_wordImmediate]
  | br | ld | ldi | lea | st | sti => simp [encode, decode, decodeAs, regField, field_word39]
  | notReg | ldr | str | ret => simp [encode, decode, decodeAs, regField, field_word336]
  | jmp x baseR y =>
    have hbase : baseR ≠ .r7 := by simpa [Instr.wellFormed] using hwf
    simp [encode, decode, decodeAs, regField, field_word336, hbase]
  | jsr => simp [encode, decode, decodeAs, field_wordJsr]
  | jsrr => simp [encode, decode, decodeAs, regField, field_wordJsrr]
  | getc | out | puts | inEcho | putsp | halt => simp [encode, decode, decodeAs, field_wordTrap, decodeTrap]
  | trap x v =>
    have hv : definedVector v = false := by simpa [Instr.wellFormed] using hwf
    simp [encode, decode, decodeAs, field_wordTrap, decodeTrap_of_undefined hv]
  | rti | res => simp [encode, decode, decodeAs, field_word12]

/-- A word read as its own opcode's row is rebuilt from its fields. -/
theorem encode_decodeAs {w : Word} {op : Opcode} (h : field w 12 4 = op.bits) : encode (decodeAs op w) = w := by
  cases op with
  | add | and =>
    dsimp only [decodeAs]
    split_ifs with hf
    · exact wordImmediate_fields h hf
    · exact wordRegister_fields h hf
  | jsr =>
    dsimp only [decodeAs]
    split_ifs with hf
    · exact wordJsr_fields h hf
    · exact wordJsrr_fields h hf
  | jmp =>
    dsimp only [decodeAs]
    split_ifs with hbase
    · have hfield := (Reg.ofBits_eq_iff ..).1 hbase
      simpa [encode, ← hfield] using word336_fields h
    · simpa [encode, regField] using word336_fields h
  | br => exact word39_fields h
  | ld | ldi | lea | st | sti => simpa [decodeAs, encode, regField] using word39_fields h
  | ldr | str | not => simpa [decodeAs, encode, regField] using word336_fields h
  | trap => exact (wellFormed_and_encode_decodeTrap ..).2.trans (wordTrap_fields h)
  | rti | res => exact word12_fields h

theorem wellFormed_decodeAs (op : Opcode) (w : Word) : (decodeAs op w).wellFormed = true := by
  cases op with
  | add | and | jsr => dsimp only [decodeAs]; split_ifs <;> rfl
  | jmp =>
    dsimp only [decodeAs]
    split_ifs with hbase
    · rfl
    · simpa [Instr.wellFormed] using hbase
  | trap => exact (wellFormed_and_encode_decodeTrap ..).1
  | br | ld | st | ldr | str | rti | not | ldi | sti | res | lea => rfl

/-- Settles O2: a Word's opcode field selects its row, and every row rebuilds the Word. -/
theorem encodeOfDecodeIsIdentity : Obligations.EncodeOfDecodeIsIdentity :=
  fun w => ⟨wellFormed_decodeAs _ w, encode_decodeAs (Opcode.bits_ofBits _).symm⟩

/-! ### The rows of R66 -/

/-- The word of every instruction fits its class's row. -/
theorem encode_fitsRow (i : Instr) : encode i &&& i.instrClass.mask = i.instrClass.matchWord := by
  cases i with
  | addReg => exact Laws.FitsRow.addReg ..
  | addImm => exact Laws.FitsRow.addImm ..
  | andReg => exact Laws.FitsRow.andReg ..
  | andImm => exact Laws.FitsRow.andImm ..
  | notReg => exact Laws.FitsRow.notReg ..
  | br => exact Laws.FitsRow.br ..
  | ret => exact Laws.FitsRow.ret ..
  | jmp => exact Laws.FitsRow.jmp ..
  | jsr => exact Laws.FitsRow.jsr ..
  | jsrr => exact Laws.FitsRow.jsrr ..
  | ld => exact Laws.FitsRow.ld ..
  | ldi => exact Laws.FitsRow.ldi ..
  | ldr => exact Laws.FitsRow.ldr ..
  | lea => exact Laws.FitsRow.lea ..
  | st => exact Laws.FitsRow.st ..
  | sti => exact Laws.FitsRow.sti ..
  | str => exact Laws.FitsRow.str ..
  | getc | out | puts | inEcho | putsp | halt | trap => exact Laws.FitsRow.wordTrap_fits ..
  | rti => exact Laws.FitsRow.rti ..
  | res => exact Laws.FitsRow.res ..

/-- The classes of R76's decoded record, listed. -/
def everyClass : List InstrClass :=
  [.addReg, .addImm, .andReg, .andImm, .not, .br, .jmp, .jsr, .jsrr, .ld, .ldi, .ldr, .lea, .st, .sti, .str, .trap,
    .rti, .res]

theorem mem_everyClass (c : InstrClass) : c ∈ everyClass := by
  cases c <;> decide

/-- Two rows of R66 differ on a bit that both masks test. -/
theorem rows_disjoint : ∀ c ∈ everyClass, ∀ d ∈ everyClass,
    c.matchWord &&& d.mask = d.matchWord &&& c.mask → c = d := by
  decide

/-- A Word fits at most one row of R66. -/
theorem row_unique {w : Word} {c d : InstrClass} (hc : w &&& c.mask = c.matchWord)
    (hd : w &&& d.mask = d.matchWord) : c = d := by
  refine rows_disjoint c (mem_everyClass c) d (mem_everyClass d) ?_
  rw [← hc, ← hd, BitVec.and_assoc, BitVec.and_assoc, BitVec.and_comm c.mask]

/-- Settles O3: a Word is the word of its decoding, so it fits that class's row, and it fits no other. -/
theorem decoderFollowsMaskAndMatchTable : Obligations.DecoderFollowsMaskAndMatchTable := by
  intro w c
  obtain ⟨-, hword⟩ := encodeOfDecodeIsIdentity w
  have hfits := encode_fitsRow (decode w)
  rw [hword] at hfits
  constructor
  · rintro rfl
    exact hfits
  · exact row_unique hfits

/-- Settles O4, by running the decoder on each of the fifteen words. -/
theorem wordsOfTheSpecDecode : Obligations.WordsOfTheSpecDecode := by
  unfold Obligations.WordsOfTheSpecDecode
  decide

/-! ### Ignored bits (R70, D6) -/

theorem wellFormed_clearIgnored (i : Instr) : i.clearIgnored.wellFormed = i.wellFormed := by
  cases i <;> rfl

theorem word12_clear (op : Opcode) (low : BitVec 12) : word12 op low &&& ~~~0x0FFF = word12 op 0 := by
  rw [and_eq_iff_bits]
  intro i hi
  simp only [word12_getLsbD]
  interval_cases i <;> simp

theorem word336_clear_low (op : Opcode) (a b : BitVec 3) (c : BitVec 6) :
    word336 op a b c &&& ~~~0x003F = word336 op a b 0 := by
  rw [and_eq_iff_bits]
  intro i hi
  simp only [word336_getLsbD]
  interval_cases i <;> simp

theorem word336_clear_outer (op : Opcode) (a b : BitVec 3) (c : BitVec 6) :
    word336 op a b c &&& ~~~0x0E3F = word336 op 0 b 0 := by
  rw [and_eq_iff_bits]
  intro i hi
  simp only [word336_getLsbD]
  interval_cases i <;> simp

theorem wordRegister_clear (op : Opcode) (dr sr1 : Reg) (x : BitVec 2) (sr2 : Reg) :
    wordRegister op dr sr1 x sr2 &&& ~~~0x0018 = wordRegister op dr sr1 0 sr2 := by
  rw [and_eq_iff_bits]
  intro i hi
  simp only [wordRegister_getLsbD]
  interval_cases i <;> simp

theorem wordJsrr_clear (x : BitVec 2) (b : Reg) (y : BitVec 6) :
    wordJsrr x b y &&& ~~~0x063F = wordJsrr 0 b 0 := by
  rw [and_eq_iff_bits]
  intro i hi
  simp only [wordJsrr_getLsbD]
  interval_cases i <;> simp

theorem wordTrap_clear (x : BitVec 4) (v : BitVec 8) : wordTrap x v &&& ~~~0x0F00 = wordTrap 0 v := by
  rw [and_eq_iff_bits]
  intro i hi
  simp only [wordTrap_getLsbD]
  interval_cases i <;> simp

theorem and_not_zero (w : Word) : w &&& ~~~0x0000 = w :=
  BitVec.and_allOnes

/-- Clearing a word's ignored bits clears its instruction's. -/
theorem encode_clearIgnored (i : Instr) :
    encode i &&& ~~~i.instrClass.ignoredBits = encode i.clearIgnored := by
  cases i with
  | addReg | andReg => exact wordRegister_clear ..
  | notReg => exact word336_clear_low ..
  | ret | jmp => exact word336_clear_outer ..
  | jsrr => exact wordJsrr_clear ..
  | getc | out | puts | inEcho | putsp | halt | trap => exact wordTrap_clear ..
  | rti | res => exact word12_clear ..
  | addImm | andImm | br | jsr | ld | ldi | ldr | lea | st | sti | str => exact and_not_zero _

theorem decode_clear_ignoredBits (w : Word) :
    decode (w &&& ~~~(decode w).instrClass.ignoredBits) = (decode w).clearIgnored := by
  obtain ⟨hwf, hword⟩ := encodeOfDecodeIsIdentity w
  have h := encode_clearIgnored (decode w)
  rw [hword] at h
  rw [h, decodeOfEncodeIsIdentity _ ((wellFormed_clearIgnored _).trans hwf)]

/-- Under the policy `nop` no trap records its word (R153). -/
theorem trapDispatch_word_of_nop {s : State} (h : s.params.unknownTrapPolicy = .nop) (v : BitVec 8) (ir ir' : Word) :
    trapDispatch v ir s = trapDispatch v ir' s := by
  simp [trapDispatch, h, unknownTrap]

/-- The word of a trap reaches nothing but its fault's record (R182). -/
theorem trapDispatch_forgetWord (v : BitVec 8) (ir ir' : Word) (s : State) :
    (trapDispatch v ir s).setRunState (trapDispatch v ir s).runState.forgetWord =
      (trapDispatch v ir' s).setRunState (trapDispatch v ir' s).runState.forgetWord := by
  unfold trapDispatch
  split_ifs
  case neg => cases s.params.unknownTrapPolicy <;> rfl
  all_goals rfl

/-- Only a fatal fault reads the ignored bits. -/
theorem exec_clearIgnored_of_not_faults {i : Instr} {s : State} (hwf : i.wellFormed = true)
    (h : i.faults s.params.unknownTrapPolicy = false) : exec i s = exec i.clearIgnored s := by
  cases i with
  | trap x v =>
    have hv : definedVector v = false := by simpa [Instr.wellFormed] using hwf
    have hnop : s.params.unknownTrapPolicy = .nop := by
      cases hp : s.params.unknownTrapPolicy
      · simp [Instr.faults, hv, hp] at h
      · rfl
    exact congrArg Host.Outcome.next (trapDispatch_word_of_nop (s := s.link) hnop v _ _)
  | rti | res => cases h
  | _ => rfl

/-- The next states of an instruction and of its ignored bits cleared differ at most in the recorded word. -/
theorem exec_clearIgnored_forgetWord (i : Instr) (s : State) : ∃ t t0, exec i s = .next t ∧
    exec i.clearIgnored s = .next t0 ∧ t.setRunState t.runState.forgetWord = t0.setRunState t0.runState.forgetWord := by
  cases i with
  | trap x v => exact ⟨_, _, rfl, rfl, trapDispatch_forgetWord v _ _ s.link⟩
  | rti | res => exact ⟨_, _, rfl, rfl, rfl⟩
  | _ => exact ⟨_, _, rfl, rfl, rfl⟩

/-- Settles O6: the cleared word is the word of the instruction with its ignored bits cleared. -/
theorem ignoredBitsDoNotChangeExecution : Obligations.IgnoredBitsDoNotChangeExecution := by
  intro w s
  simp only [decode_clear_ignoredBits]
  obtain ⟨hwf, -⟩ := encodeOfDecodeIsIdentity w
  exact ⟨exec_clearIgnored_of_not_faults hwf, exec_clearIgnored_forgetWord _ s⟩

/-! ## The step on the word at PC (R60 to R62) -/

/-- Settles O7: the fetch is the polling read at PC, and away from the keyboard status it is pure. -/
theorem stepExecutesTheInstructionAtPc : Obligations.StepExecutesTheInstructionAtPc := by
  refine ⟨fun s hr ha => step_of_running hr ha, fun s i hr ha hwf hpc hword => ?_⟩
  rw [step_of_pc_ne_kbsr hr ha hpc, hword, decodeOfEncodeIsIdentity i hwf]

/-- A fetch from the slot does not poll (R48). -/
theorem State.fetchSlot_ne_kbsrAddr (s : State) : s.fetchSlot ≠ s.params.kbsrAddr := by
  unfold State.fetchSlot
  split_ifs with h
  · rw [h]
    bv_omega
  · exact h

theorem State.fetchSlot_of_ne {s : State} (h : s.pc ≠ s.params.kbsrAddr) : s.fetchSlot = s.pc :=
  if_neg h

theorem State.withFetchWord_abortDue (s : State) (nbits w : Nat) : (s.withFetchWord nbits w).abortDue = false := by
  simp [State.withFetchWord, State.abortDue]

theorem State.withFetchWord_memReadRaw_pc (s : State) (w : Word) :
    (s.withFetchWord 16 w.toNat).memReadRaw (s.withFetchWord 16 w.toNat).pc = w := by
  have hw : BitVec.ofNat 16 (w.toNat % 2 ^ 16) = w := by
    rw [Nat.mod_eq_of_lt w.isLt, BitVec.ofNat_toNat, BitVec.setWidth_eq]
  have hread := s.memReadRaw_memWrite_self s.fetchSlot (BitVec.ofNat 16 (w.toNat % 2 ^ 16))
  exact hread.trans hw

/-- Settles O8: the placed word stands where the next fetch reads it without a poll. -/
theorem placedWordIsExecutedNext : Obligations.PlacedWordIsExecutedNext := by
  intro s w
  have hstep := step_of_pc_ne_kbsr (s := s.withFetchWord 16 w.toNat) rfl (s.withFetchWord_abortDue _ _)
    s.fetchSlot_ne_kbsrAddr
  rw [s.withFetchWord_memReadRaw_pc w] at hstep
  exact ⟨hstep, State.fetchSlot_of_ne, keepsRegs_of_regs_eq rfl [], rfl, keepsMem_memWrite s _ _, rfl, ⟨rfl, rfl⟩,
    rfl⟩

/-- Settles O10: the zero word is a BR that is never taken. -/
theorem zeroWordOnlyAdvancesPc : Obligations.ZeroWordOnlyAdvancesPc := by
  intro s hr ha hpc hword
  have hbr : decode 0x0000 = .br 0 0 := by decide
  refine ⟨?_, fun h => ?_⟩
  · rw [step_of_pc_ne_kbsr hr ha hpc, hword, hbr, exec_br_zero]
  · rw [h]
    rfl

end Sys2Proof.Machine

/-! ## The operate instructions (R101 to R105) -/

namespace Sys2Proof.Machine

/-- The rows of R66 whose mask tests the opcode only. -/
theorem decode_of_mask_F000 {w : Word} {op : Opcode} (h : w &&& 0xF000 = op.bits ++ 0#12) :
    decode w = decodeAs op w := by
  rw [decode, (mask_F000_iff w op).1 h]

/-- The rows of R66 whose mask tests the opcode and a flag bit `k`, for an opcode with one form per value of that bit:
`i` where it is 1, `j` where it is 0. -/
theorem decode_of_mask_flag {w : Word} {op : Opcode} {k : Nat} {i j : Instr} (hk : k < 12) (b : Bool)
    (h : w &&& (0xF000 ||| BitVec.twoPow 16 k) = (op.bits ++ 0#12 : Word) ||| (if b then BitVec.twoPow 16 k else 0))
    (hforms : decodeAs op w = if field w k 1 = 1 then i else j) : decode w = if b then i else j := by
  obtain ⟨hop, hbit⟩ := (mask_flag_iff w op k hk b).1 h
  rw [decode, hop, hforms]
  simp only [bit_of_field_one, hbit]

/-- An instruction that only writes a register and its flags (R25): what it writes and all it keeps. -/
theorem exec_of_setRegCC {i : Instr} {s : State} {dr : Reg} {v : Word} (h : exec i s = .next (s.setRegCC dr v)) :
    ∃ t, exec i s = .next t ∧ t.reg dr = v ∧ t.cond = setcc v ∧ KeepsRegs s t [dr] ∧ t.pc = s.pc ∧
      KeepsMem s t [] ∧ KeepsIo s t ∧ KeepsHost s t :=
  ⟨_, h, setRegCC_reg_self s dr v, rfl, keepsRegs_setRegCC s dr v, rfl, keepsMem_of_mem_eq rfl [],
    ⟨rfl, rfl, rfl, rfl⟩, rfl, rfl⟩

/-- Settles O30: bit 5 selects ADD's form, and each form writes one register and its flags. -/
theorem addSetsDestinationAndFlags : Obligations.AddSetsDestinationAndFlags := by
  refine ⟨fun w => ⟨fun h => ?_, fun h => ?_⟩, fun dr sr1 sr2 x s => ?_, fun dr sr1 imm5 s => ?_⟩
  · exact decode_of_mask_flag (op := .add) (k := 5) (by decide) false h rfl
  · exact decode_of_mask_flag (op := .add) (k := 5) (by decide) true h rfl
  · exact exec_of_setRegCC rfl
  · exact exec_of_setRegCC rfl

/-- Settles O31: bit 5 selects AND's form, and each form writes one register and its flags. -/
theorem andSetsDestinationAndFlags : Obligations.AndSetsDestinationAndFlags := by
  refine ⟨fun w => ⟨fun h => ?_, fun h => ?_⟩, fun dr sr1 sr2 x s => ?_, fun dr sr1 imm5 s => ?_⟩
  · exact decode_of_mask_flag (op := .and) (k := 5) (by decide) false h rfl
  · exact decode_of_mask_flag (op := .and) (k := 5) (by decide) true h rfl
  · exact exec_of_setRegCC rfl
  · exact exec_of_setRegCC rfl

/-- Settles O32: NOT's row tests the opcode only, so bits 5:0 are free. -/
theorem notComplementsItsSource : Obligations.NotComplementsItsSource :=
  ⟨fun _ h => decode_of_mask_F000 (op := .not) h, fun _ _ _ _ => exec_of_setRegCC rfl⟩

end Sys2Proof.Machine

/-! ## Control transfer (R110 to R113) -/

namespace Sys2Proof.Machine

/-- An instruction that only writes PC (R23): what it writes and all it keeps. -/
theorem exec_of_setPc {i : Instr} {s : State} {v : Word} (h : exec i s = .next (s.setPc v)) :
    ∃ t, exec i s = .next t ∧ t.pc = v ∧ KeepsRegs s t [] ∧ t.cond = s.cond ∧ KeepsMem s t [] ∧ KeepsIo s t ∧
      KeepsHost s t :=
  ⟨_, h, rfl, keepsRegs_of_regs_eq rfl [], rfl, keepsMem_of_mem_eq rfl [], ⟨rfl, rfl, rfl, rfl⟩, rfl, rfl⟩

/-- A call: an instruction that writes the link and then PC, and nothing else (R112, R113). -/
theorem exec_of_link_setPc {i : Instr} {s : State} {v : Word} (h : exec i s = .next (s.link.setPc v)) :
    ∃ t, exec i s = .next t ∧ t.reg .r7 = s.pc ∧ t.pc = v ∧ KeepsRegs s t [.r7] ∧ t.cond = s.cond ∧ KeepsMem s t [] ∧
      KeepsIo s t ∧ KeepsHost s t :=
  ⟨_, h, s.setReg_reg_self .r7 s.pc, rfl, keepsRegs_setReg s .r7 s.pc, rfl, keepsMem_of_mem_eq rfl [],
    ⟨rfl, rfl, rfl, rfl⟩, rfl, rfl⟩

theorem branchTaken_iff (s : State) (nzp : BitVec 3) : s.branchTaken nzp = true ↔ nzp &&& s.cond ≠ 0 :=
  bne_iff_ne

/-- BR writes PC in both cases: not taken, it writes back PC†. -/
theorem exec_br (nzp : BitVec 3) (off : BitVec 9) (s : State) :
    exec (.br nzp off) s = .next (s.setPc (if nzp &&& s.cond ≠ 0 then s.pc + off.signExtend 16 else s.pc)) := by
  refine congrArg Host.Outcome.next ?_
  by_cases h : nzp &&& s.cond ≠ 0
  · rw [if_pos ((branchTaken_iff s nzp).2 h), if_pos h]
    rfl
  · rw [if_neg (mt (branchTaken_iff s nzp).1 h), if_neg h]
    rfl

/-- Mask 111 meets each of the three values of COND (R24). -/
theorem full_mask_and_ne_zero : ∀ c : Cond, condOneHot c = true → 0b111 &&& c ≠ 0 := by
  decide

/-- Settles O33: BR's next PC is one conditional, which mask 000 and mask 111 each decide. -/
theorem branchTestsMaskAgainstCond : Obligations.BranchTestsMaskAgainstCond := by
  refine ⟨fun w h => decode_of_mask_F000 (op := .br) h, fun nzp off s => ?_⟩
  obtain ⟨t, ht, hpc, hkept⟩ := exec_of_setPc (exec_br nzp off s)
  refine ⟨t, ht, hpc, fun hnone => ?_, fun hall hcond => ?_, hkept⟩
  · rw [hpc, hnone, if_neg (by simp)]
  · rw [hpc, hall, if_pos (full_mask_and_ne_zero s.cond hcond)]

/-- Settles O34: JMP and RET share one row and one jump, through the base register. -/
theorem jumpGoesToTheBaseRegister : Obligations.JumpGoesToTheBaseRegister := by
  refine ⟨fun w h => ?_, fun x b y s => ?_, fun x y s => ?_⟩
  · exact decode_of_mask_F000 (op := .jmp) h
  · exact exec_of_setPc rfl
  · exact exec_of_setPc rfl

/-- Settles O35: bit 11 selects JSR, a call whose target is computed from PC†. -/
theorem jsrLinksAndBranches : Obligations.JsrLinksAndBranches :=
  ⟨fun _ h => decode_of_mask_flag (op := .jsr) (k := 11) (by decide) true h rfl, fun _ _ => exec_of_link_setPc rfl⟩

/-- The target of JSRR: the base register before the link is written, but for base R7 under link_first (R113, D16). -/
theorem callThrough_eq_setPc (order : LinkOrder) (b : Reg) (s : State) :
    callThrough order b s = s.link.setPc (if b = .r7 ∧ order = .linkFirst then s.pc else s.reg b) := by
  cases order with
  | linkFirst => simp [callThrough, jumpThrough, State.link, State.setReg_reg]
  | readFirst => simp [callThrough]

theorem exec_jsrr (x : BitVec 2) (b : Reg) (y : BitVec 6) (s : State) : exec (.jsrr x b y) s =
    .next (s.link.setPc (if b = .r7 ∧ s.params.jsrrLinkOrder = .linkFirst then s.pc else s.reg b)) :=
  congrArg Host.Outcome.next (callThrough_eq_setPc s.params.jsrrLinkOrder b s)

/-- Settles O36: JSRR is a call, and its target depends on the link order for base R7 only. -/
theorem jsrrLinksAndJumpsInEitherOrder : Obligations.JsrrLinksAndJumpsInEitherOrder := by
  refine ⟨fun w h => ?_, rfl, fun x b y s => ?_⟩
  · exact decode_of_mask_flag (op := .jsr) (k := 11) (by decide) false h rfl
  · obtain ⟨t, ht, hlink, hpc, hkept⟩ := exec_of_link_setPc (exec_jsrr x b y s)
    refine ⟨t, ht, hlink, fun hne => ?_, fun hr7 => ?_, hkept⟩
    · rw [hpc, if_neg (fun h => hne h.1)]
    · cases horder : s.params.jsrrLinkOrder with
      | linkFirst => rw [hpc, if_pos ⟨hr7, horder⟩]
      | readFirst => rw [hpc, hr7, if_neg (by simp [horder])]

end Sys2Proof.Machine

/-! ## Loads and stores (R120 to R129) -/

namespace Sys2Proof.Machine

/-- What polling reads can have made of a state: the memory and the input device are all they write (R45, R46, R48). -/
def ChangedByReads (s u : State) : Prop :=
  ∃ m i d, u = { s with mem := m, input := i, inputDraws := d }

theorem changedByReads_memRead (s : State) (a : Word) : ChangedByReads s (s.memRead a).2 := by
  obtain ⟨m, i, d, h, -⟩ := s.afterRead_eq a
  exact ⟨m, i, d, h⟩

theorem ChangedByReads.trans {s u v : State} (hu : ChangedByReads s u) (hv : ChangedByReads u v) :
    ChangedByReads s v := by
  obtain ⟨_, _, _, rfl⟩ := hu
  obtain ⟨m, i, d, rfl⟩ := hv
  exact ⟨m, i, d, rfl⟩

theorem ChangedByReads.keeps {s u : State} (h : ChangedByReads s u) :
    KeepsRegs s u [] ∧ u.cond = s.cond ∧ u.pc = s.pc ∧ u.runState = s.runState ∧ u.output = s.output ∧
      KeepsHost s u := by
  obtain ⟨_, _, _, rfl⟩ := h
  exact ⟨keepsRegs_of_regs_eq rfl [], rfl, rfl, rfl, rfl, rfl, rfl⟩

/-- A load: an instruction whose reads end with the word `m.1` in the state `m.2`, and that then writes the word to a
register and sets its flags. Where no read polled, `m.2` is the state it began in (R122 to R124, R129). -/
theorem exec_of_load {i : Instr} {s : State} {dr : Reg} {m : Word × State} (hm : ChangedByReads s m.2)
    (h : exec i s = .next (m.2.setRegCC dr m.1)) :
    ∃ t, exec i s = .next t ∧ t.reg dr = m.1 ∧ t.cond = setcc m.1 ∧ KeepsRegs s t [dr] ∧ t.pc = s.pc ∧
      KeepsMem m.2 t [] ∧ KeepsInput m.2 t ∧ t.runState = s.runState ∧ t.output = s.output ∧ KeepsHost s t ∧
      (∀ w, m = (w, s) → t.reg dr = w ∧ KeepsMem s t [] ∧ KeepsInput s t) := by
  obtain ⟨hregs, -, hpc, hrun, hout, hhost⟩ := hm.keeps
  have hothers : KeepsRegs s (m.2.setRegCC dr m.1) [dr] := fun r hr =>
    (keepsRegs_setRegCC m.2 dr m.1 r hr).trans (hregs r List.not_mem_nil)
  refine ⟨_, h, setRegCC_reg_self m.2 dr m.1, rfl, hothers, hpc, keepsMem_of_mem_eq rfl [], ⟨rfl, rfl⟩, hrun, hout,
    hhost, ?_⟩
  rintro w rfl
  exact ⟨setRegCC_reg_self s dr w, keepsMem_of_mem_eq rfl [], rfl, rfl⟩

/-- A load with one read: away from the keyboard status that read is pure (R44, R122, R124). -/
theorem exec_of_loadFrom {i : Instr} {s : State} {ea : Word} {dr : Reg} (h : exec i s = .next (loadFrom ea dr s)) :
    ∃ t, exec i s = .next t ∧ t.reg dr = (s.memRead ea).1 ∧ t.cond = setcc (s.memRead ea).1 ∧ KeepsRegs s t [dr] ∧
      t.pc = s.pc ∧ KeepsMem (s.memRead ea).2 t [] ∧ KeepsInput (s.memRead ea).2 t ∧ t.runState = s.runState ∧
      t.output = s.output ∧ KeepsHost s t ∧
      (ea ≠ s.params.kbsrAddr → t.reg dr = s.memReadRaw ea ∧ KeepsMem s t [] ∧ KeepsInput s t) := by
  obtain ⟨t, ht, hdr, hcond, hregs, hpc, hmem, hin, hrun, hout, hhost, hpure⟩ :=
    exec_of_load (changedByReads_memRead s ea) h
  exact ⟨t, ht, hdr, hcond, hregs, hpc, hmem, hin, hrun, hout, hhost, fun hne => hpure _ (State.memRead_of_ne hne)⟩

/-- Settles O37: LD is a load with one read. -/
theorem ldLoadsPcRelative : Obligations.LdLoadsPcRelative :=
  ⟨fun _ h => decode_of_mask_F000 (op := .ld) h, fun _ _ _ => exec_of_loadFrom rfl⟩

/-- Settles O38: LDI is a load with two reads, pure where neither is of the keyboard status. -/
theorem ldiLoadsThroughThePointer : Obligations.LdiLoadsThroughThePointer := by
  refine ⟨fun w h => decode_of_mask_F000 (op := .ldi) h, fun dr off s => ?_⟩
  intro ea p m
  have hreads : ChangedByReads s m.2 := (changedByReads_memRead s ea).trans (changedByReads_memRead p.2 p.1)
  obtain ⟨t, ht, hdr, hcond, hregs, hpc, hmem, hin, hrun, hout, hhost, hpure⟩ :=
    exec_of_load (i := .ldi dr off) hreads rfl
  refine ⟨t, ht, hdr, hcond, hregs, hpc, hmem, hin, hrun, hout, hhost, fun hne hne' => hpure _ ?_⟩
  have hpointer : p = (s.memReadRaw ea, s) := State.memRead_of_ne hne
  calc m = s.memRead (s.memReadRaw ea) := by simp only [m, hpointer]
    _ = (s.memReadRaw (s.memReadRaw ea), s) := State.memRead_of_ne hne'

/-- Settles O39: LDR is a load with one read, at an address computed before DR is written. -/
theorem ldrLoadsBaseOffset : Obligations.LdrLoadsBaseOffset :=
  ⟨fun _ h => decode_of_mask_F000 (op := .ldr) h, fun _ _ _ _ => exec_of_loadFrom rfl⟩

/-- Settles O40: LEA writes one register and its flags, and reads nothing. -/
theorem leaLoadsTheAddress : Obligations.LeaLoadsTheAddress :=
  ⟨fun _ h => decode_of_mask_F000 (op := .lea) h, fun _ _ _ => exec_of_setRegCC rfl⟩

/-- A store: an instruction that only writes one word of memory (R43, R126, R128). -/
theorem exec_of_memWrite {i : Instr} {s : State} {a v : Word} (h : exec i s = .next (s.memWrite a v)) :
    ∃ t, exec i s = .next t ∧ t.memReadRaw a = v ∧ KeepsMem s t [a] ∧ KeepsRegs s t [] ∧ t.cond = s.cond ∧
      t.pc = s.pc ∧ KeepsIo s t ∧ KeepsHost s t :=
  ⟨_, h, s.memReadRaw_memWrite_self a v, keepsMem_memWrite s a v, (writeChangesExactlyOneWord s a v a).2⟩

/-- Settles O41: ST is a store at an address computed from PC†. -/
theorem stStoresPcRelative : Obligations.StStoresPcRelative :=
  ⟨fun _ h => decode_of_mask_F000 (op := .st) h, fun _ _ _ => exec_of_memWrite rfl⟩

/-- A store through a pointer: an instruction that stores SR in the state `p.2` its pointer read leaves, at the word
`p.1` read; the read keeps SR. Where it polled nothing, `p.2` is the state it began in (R127, D10). -/
theorem exec_of_memWrite_through {i : Instr} {s : State} {sr : Reg} {p : Word × State} (hp : ChangedByReads s p.2)
    (h : exec i s = .next (p.2.memWrite p.1 (p.2.reg sr))) :
    ∃ t, exec i s = .next t ∧ t.memReadRaw p.1 = s.reg sr ∧ KeepsMem p.2 t [p.1] ∧ KeepsInput p.2 t ∧
      KeepsRegs s t [] ∧ t.cond = s.cond ∧ t.pc = s.pc ∧ t.runState = s.runState ∧ t.output = s.output ∧
      KeepsHost s t ∧ (∀ w, p = (w, s) → p.1 = w ∧ KeepsMem s t [w] ∧ KeepsInput s t) := by
  obtain ⟨hregs, hcond, hpc, hrun, hout, hhost⟩ := hp.keeps
  have hstored : (p.2.memWrite p.1 (p.2.reg sr)).memReadRaw p.1 = s.reg sr :=
    (p.2.memReadRaw_memWrite_self p.1 _).trans (hregs sr List.not_mem_nil)
  refine ⟨_, h, hstored, keepsMem_memWrite p.2 p.1 _, ⟨rfl, rfl⟩, hregs, hcond, hpc, hrun, hout, hhost, ?_⟩
  rintro w rfl
  exact ⟨rfl, keepsMem_memWrite s w _, rfl, rfl⟩

/-- Settles O42: STI is a store through a pointer whose read is pure away from the keyboard status. -/
theorem stiStoresThroughThePointer : Obligations.StiStoresThroughThePointer := by
  refine ⟨fun w h => decode_of_mask_F000 (op := .sti) h, fun sr off s => ?_⟩
  obtain ⟨t, ht, hword, hmem, hin, hregs, hcond, hpc, hrun, hout, hhost, hpure⟩ :=
    exec_of_memWrite_through (i := .sti sr off) (changedByReads_memRead s (s.pcRelative off)) rfl
  exact ⟨t, ht, hword, hmem, hin, hregs, hcond, hpc, hrun, hout, hhost, fun hne => hpure _ (State.memRead_of_ne hne)⟩

/-- Settles O43: STR is a store at an address computed from its base register. -/
theorem strStoresBaseOffset : Obligations.StrStoresBaseOffset :=
  ⟨fun _ h => decode_of_mask_F000 (op := .str) h, fun _ _ _ _ => exec_of_memWrite rfl⟩

end Sys2Proof.Machine

/-! ## The string routines' steps (R147, R151) -/

namespace Sys2Proof.Machine

theorem stringBytes_puts (w : Word) : stringBytes .puts w = [w.setWidth 8] :=
  congrArg (fun b => [b]) (lowByte_eq w)

theorem stringBytes_putsp (w : Word) :
    stringBytes .putsp w = if w.toNat < 256 then [w.setWidth 8] else [w.setWidth 8, (w >>> 8).setWidth 8] := by
  simp only [stringBytes, highByte_eq_zero_iff]
  rw [lowByte_eq, highByte_eq]

/-- A zero word ends the string (R147, R151). -/
theorem step_of_string_end {s : State} {k : StringKind} {a : Word} (hr : s.runState = .stringOut k a)
    (hdue : s.abortDue = false) (hw : s.memReadRaw a = 0) : step s = .next (s.tick.setRunState .running) := by
  rw [step_of_stringOut hr hdue]
  exact congrArg Host.Outcome.next (if_pos hw)

/-- A nonzero word is written and the string goes on at the next address (R147, R151). -/
theorem step_of_string_word {s : State} {k : StringKind} {a : Word} (hr : s.runState = .stringOut k a)
    (hdue : s.abortDue = false) (hw : s.memReadRaw a ≠ 0) :
    step s = .next ((s.tick.emit (stringBytes k (s.memReadRaw a))).setRunState (.stringOut k (a + 1))) := by
  rw [step_of_stringOut hr hdue]
  exact congrArg Host.Outcome.next (if_neg hw)

/-- Settles O50: a string step changes the run state and the output trace only, by the word it reads. -/
theorem stringStepWritesOneWord : Obligations.StringStepWritesOneWord := by
  intro s k a hr hdue
  by_cases hw : s.memReadRaw a = 0
  · exact ⟨_, step_of_string_end hr hdue hw, keepsRegs_of_regs_eq rfl [], rfl, rfl, keepsMem_of_mem_eq rfl [],
      ⟨rfl, rfl⟩, rfl, fun _ => ⟨rfl, rfl⟩, absurd hw, absurd hw, absurd hw, absurd hw⟩
  · refine ⟨_, step_of_string_word hr hdue hw, keepsRegs_of_regs_eq rfl [], rfl, rfl, keepsMem_of_mem_eq rfl [],
      ⟨rfl, rfl⟩, rfl, fun h => absurd h hw, fun _ => rfl, fun _ hk => ?_, fun _ hk hlow => ?_, fun _ hk hhigh => ?_⟩
    · rw [hk, stringBytes_puts]
      rfl
    · rw [hk, stringBytes_putsp, if_pos hlow]
      rfl
    · rw [hk, stringBytes_putsp, if_neg (Nat.not_lt.2 hhigh)]
      rfl

/-! ## Whole strings (R147, R151, D15) -/

/-- One step of the host's schedule and then `n` more. -/
theorem tick_tickBy (s : State) (n : Nat) : s.tick.tickBy n = s.tickBy (n + 1) := by
  simp only [State.tickBy, State.tick, Option.map_map, Function.comp_def, Nat.sub_sub, Nat.add_comm 1 n]

/-- Either string routine over a whole string, by induction on its words: each word's step appends its bytes, and the
terminator's step goes back to RUNNING. -/
theorem run_string (k : StringKind) (ws : List Word) : ∀ (s : State) (a : Word), s.runState = .stringOut k a →
    s.holdsString a ws → s.noAbortWithin (ws.length + 1) →
    Sys2Proof.core.run (ws.length + 1) s = .next { s.tickBy (ws.length + 1) with
      runState := .running
      output := s.output ++ ws.flatMap (stringBytes k) } := by
  induction ws with
  | nil =>
    intro s a hr hend habort
    obtain ⟨hdue, -⟩ := abortDue_of_noAbortWithin habort
    rw [List.flatMap_nil, List.append_nil]
    exact run_succ_of_next (step_of_string_end hr hdue hend) 0
  | cons w ws ih =>
    intro s a hr hstring habort
    obtain ⟨hw, hread, hrest⟩ := hstring
    obtain ⟨hdue, hlater⟩ := abortDue_of_noAbortWithin habort
    have hstep := step_of_string_word hr hdue (hread ▸ hw)
    rw [hread] at hstep
    rw [List.length_cons, run_succ_of_next hstep, ← tick_tickBy, List.flatMap_cons, ← List.append_assoc]
    exact ih _ (a + 1) rfl (holdsString_of_mem_eq hrest rfl) hlater

/-- Settles O51: the whole-string lemma, with PUTS's bytes. -/
theorem putsWritesTheWholeString : Obligations.PutsWritesTheWholeString := by
  intro ws s a hr hstring habort
  have hbytes : ws.flatMap (stringBytes .puts) = ws.map fun w : Word => w.setWidth 8 := by
    rw [funext stringBytes_puts, List.map_eq_flatMap]
  rw [run_string .puts ws s a hr hstring habort, hbytes]

/-- Settles O52: the whole-string lemma, with PUTSP's bytes. -/
theorem putspWritesTheWholeString : Obligations.PutspWritesTheWholeString := by
  intro ws s a hr hstring habort
  rw [run_string .putsp ws s a hr hstring habort, funext stringBytes_putsp]

/-- Settles O53, by induction on the number of steps: no step changes memory, so every one of them reads a word that
is not zero. -/
theorem stringWithoutTerminatorNeverEnds : Obligations.StringWithoutTerminatorNeverEnds := by
  intro n
  induction n with
  | zero =>
    intro s k a hr hmem habort
    exact ⟨s, rfl, by simpa using hr⟩
  | succ n ih =>
    intro s k a hr hmem habort
    obtain ⟨hdue, hlater⟩ := abortDue_of_noAbortWithin habort
    rw [run_succ_of_next (step_of_string_word hr hdue (hmem a)), Nat.add_comm n 1, BitVec.ofNat_add,
      ← BitVec.add_assoc]
    exact ih _ k (a + 1) rfl hmem hlater

end Sys2Proof.Machine

/-! ## The device's answers (R155, D12) -/

namespace Sys2Proof.Machine

theorem firstCharacter_eq_none_iff (l : List (Option Word)) : firstCharacter l = none ↔ ∀ c, some c ∉ l := by
  rw [← Option.not_isSome_iff_eq_none, firstCharacter_isSome_iff, not_exists]

theorem State.awaitDevice_of_character {s : State} {c : Word} {later : List (Option Word)}
    (h : firstCharacter s.input = some (c, later)) : s.awaitDevice = some (c, { s with input := later }) := by
  rw [State.awaitDevice, h]

theorem State.awaitDevice_of_no_character {s : State} (h : firstCharacter s.input = none) :
    s.awaitDevice = (Config.freeInput s.inputDraws).map
      fun c => (c, { s with input := [], inputDraws := s.inputDraws + 1 }) := by
  rw [State.awaitDevice, h]
  cases Config.freeInput s.inputDraws <;> rfl

/-- A wait has no step exactly while the device has no character to give, placed or free (R144). -/
theorem State.awaitDevice_eq_none_iff (s : State) :
    s.awaitDevice = none ↔ (∀ c, some c ∉ s.input) ∧ Config.freeInput s.inputDraws = none := by
  rw [← firstCharacter_eq_none_iff]
  cases h : firstCharacter s.input with
  | none => simp [State.awaitDevice_of_no_character h]
  | some p => simp [State.awaitDevice_of_character h]

/-- Settles O29: a poll by the form of the coming answers, a wait by the first character among them. -/
theorem eachAnswerIsConsumedOnce : Obligations.EachAnswerIsConsumedOnce := by
  refine fun s => ⟨fun a later h => State.pollDevice_of_input h, fun h => ?_, fun n c later h => ?_, fun n h => ?_⟩
  · rw [State.pollDevice, h]
  · apply State.awaitDevice_of_character
    rw [h, firstCharacter_replicate_none]
    rfl
  · apply State.awaitDevice_of_no_character
    rw [h, ← List.append_nil (List.replicate n none), firstCharacter_replicate_none]
    rfl

/-! ## The completions of GETC and IN (R144, R149, D18) -/

/-- A due abort takes the place of a wait's step (R186, D18). -/
theorem step_of_waitInput_abort {s : State} {k : InputKind} (hr : s.runState = .waitInput k)
    (hdue : s.abortDue = true) : step s = .next (hostAbort s) := by
  simp [step, hr, hdue]

/-- A wait has a step unless the device delivers nothing (R144, R149). -/
theorem step_of_waitInput_fault_iff {s : State} {k : InputKind} (hr : s.runState = .waitInput k)
    (hdue : s.abortDue = false) : step s = .fault .waitingForInput ↔
      (∀ c, some c ∉ s.input) ∧ Config.freeInput s.inputDraws = none := by
  rw [step_of_waitInput hr hdue, waitStep]
  refine Iff.trans ?_ s.tick.awaitDevice_eq_none_iff
  cases s.tick.awaitDevice <;> simp

/-- What the completion of a wait writes, by its routine's echo, and all it keeps (R144, R149). -/
theorem step_of_waitInput_delivered {s u : State} {k : InputKind} {c : Word} (hr : s.runState = .waitInput k)
    (hdue : s.abortDue = false) (hc : s.tick.awaitDevice = some (c, u)) :
    ∃ t, step s = .next t ∧ t.reg .r0 = c ∧ t.cond = setcc c ∧ t.runState = .running ∧
      t.output = s.output ++ echoOf k c ∧ KeepsRegs s t [.r0] ∧ t.pc = s.pc ∧ KeepsMem s t [] ∧ KeepsInput u t ∧
      t.params = s.params := by
  have hstep : step s = .next (completeInput k c u) := by rw [step_of_waitInput hr hdue, waitStep, hc]
  obtain ⟨i, d, rfl⟩ := State.awaitDevice_eq hc
  exact ⟨_, hstep, setRegCC_reg_self _ .r0 c, rfl, rfl, rfl, keepsRegs_setReg s .r0 c, rfl, keepsMem_of_mem_eq rfl [],
    ⟨rfl, rfl⟩, rfl⟩

/-- Settles O46: GETC echoes nothing. -/
theorem getcCompletesWithTheCharacter : Obligations.GetcCompletesWithTheCharacter := by
  refine fun s hr => ⟨fun c u hdue hc => ?_, step_of_waitInput_fault_iff hr, step_of_waitInput_abort hr⟩
  have hecho : s.output ++ echoOf .getc c = s.output := List.append_nil s.output
  rw [← hecho]
  exact step_of_waitInput_delivered hr hdue hc

/-- Settles O47: IN echoes the character's low byte. -/
theorem inCompletesWithTheEcho : Obligations.InCompletesWithTheEcho := by
  refine fun s hr => ⟨fun c u hdue hc => ?_, step_of_waitInput_fault_iff hr, step_of_waitInput_abort hr⟩
  have hecho : echoOf .inEcho c = [c.setWidth 8] := congrArg (fun b => [b]) (lowByte_eq c)
  rw [← hecho]
  exact step_of_waitInput_delivered hr hdue hc

end Sys2Proof.Machine

/-! ## TRAP and the issue of its routines (R140 to R153) -/

namespace Sys2Proof.Machine

/-- Settles O44: TRAP's row tests the opcode only, and the dispatcher makes the decoder's choice among the vectors. -/
theorem trapVectorSelectsTheRoutine : Obligations.TrapVectorSelectsTheRoutine :=
  ⟨fun _ h => decode_of_mask_F000 (op := .trap) h, fun _ _ => ⟨rfl, rfl, rfl, rfl, rfl, rfl⟩⟩

/-- A trap: an instruction that links R7 and then changes at most the output trace and the run state (R140, R156). -/
theorem exec_of_trap {i : Instr} {s : State} {out : List Byte} {r : RunState}
    (h : exec i s = .next { s.link with output := out, runState := r }) :
    ∃ t, exec i s = .next t ∧ t.reg .r7 = s.pc ∧ t.runState = r ∧ t.output = out ∧ KeepsRegs s t [.r7] ∧
      t.cond = s.cond ∧ t.pc = s.pc ∧ KeepsMem s t [] ∧ KeepsInput s t ∧ KeepsHost s t :=
  ⟨_, h, s.setReg_reg_self .r7 s.pc, rfl, rfl, keepsRegs_setReg s .r7 s.pc, rfl, rfl, keepsMem_of_mem_eq rfl [],
    ⟨rfl, rfl⟩, rfl, rfl⟩

/-- Settles O45: GETC's and IN's issue is a trap that leads to the wait. -/
theorem getcAndInEnterTheWait : Obligations.GetcAndInEnterTheWait :=
  fun _ _ => ⟨exec_of_trap rfl, exec_of_trap rfl⟩

/-- OUT reads R0 after the link, which leaves it (R140, R145). -/
theorem link_reg_r0 (s : State) : s.link.reg .r0 = s.reg .r0 :=
  s.setReg_reg_of_ne s.pc (by decide)

/-- Settles O48: OUT is a trap that stays RUNNING, and its byte is of R0 before the link. -/
theorem outWritesTheLowByteOfR0 : Obligations.OutWritesTheLowByteOfR0 := by
  intro x s
  have hexec : exec (.out x) s = .next (s.link.emit [(s.reg .r0).setWidth 8]) := by
    rw [← lowByte_eq, ← link_reg_r0]
    rfl
  obtain ⟨t, ht, hlink, hrun, hout, hregs, hcond, hpc, hmem, hin, hhost⟩ := exec_of_trap hexec
  exact ⟨t, ht, hout, hlink, hregs, hcond, hpc, hmem, hrun, hin, hhost⟩

/-- A string routine's issue: a trap that leads to STRING_OUT at the value of R0 (R146, R150). -/
theorem exec_of_string_issue {i : Instr} {s : State} {k : StringKind}
    (h : exec i s = .next (s.link.setRunState (.stringOut k (s.link.reg .r0)))) :
    ∃ t, exec i s = .next t ∧ t.runState = .stringOut k (s.reg .r0) ∧ t.reg .r7 = s.pc ∧ t.output = s.output ∧
      KeepsRegs s t [.r7] ∧ t.cond = s.cond ∧ t.pc = s.pc ∧ KeepsMem s t [] ∧ KeepsInput s t ∧ KeepsHost s t := by
  rw [link_reg_r0] at h
  obtain ⟨t, ht, hlink, hrun, hkept⟩ := exec_of_trap h
  exact ⟨t, ht, hrun, hlink, hkept⟩

/-- Settles O49: PUTS and PUTSP have one issue, with their own kind. -/
theorem putsAndPutspStartAtR0 : Obligations.PutsAndPutspStartAtR0 :=
  fun _ _ => ⟨exec_of_string_issue rfl, exec_of_string_issue rfl⟩

/-! ## The unknown vector (R153, D11) -/

theorem definedVector_eq_false_iff (v : BitVec 8) :
    definedVector v = false ↔ v.toNat < 0x20 ∨ 0x25 < v.toNat := by
  simp [definedVector, BitVec.le_def, imp_iff_not_or]

/-- An unknown vector changes at most the run state, and that under the policy `fault` only. -/
theorem unknownTrap_eq_setRunState (policy : TrapPolicy) (ir : Word) (s : State) :
    unknownTrap policy ir s =
      s.setRunState (if policy = .fault then .faulted .unknownTrap ir (s.pc - 1) else s.runState) := by
  cases policy <;> rfl

/-- A TRAP with an unknown vector links R7 and then follows the policy. -/
theorem exec_trap_of_undefined {v : BitVec 8} (h : definedVector v = false) (x : BitVec 4) (s : State) :
    exec (.trap x v) s = .next (s.link.setRunState (if s.params.unknownTrapPolicy = .fault
      then .faulted .unknownTrap (encode (.trap x v)) (s.pc - 1) else s.runState)) := by
  have hv := (definedVector_iff v).not.1 (by simp [h])
  simp only [not_or] at hv
  refine congrArg Host.Outcome.next ?_
  rw [← State.setReg_params s .r7 s.pc]
  simp only [trapDispatch, hv, if_false]
  exact unknownTrap_eq_setRunState s.params.unknownTrapPolicy (encode (.trap x v)) s.link

theorem wordTrap_eq_ofNat (x : BitVec 4) (v : BitVec 8) :
    wordTrap x v = BitVec.ofNat 16 (0xF000 + x.toNat * 256 + v.toNat) := by
  have hx := x.isLt
  have hv := v.isLt
  apply BitVec.eq_of_toNat_eq
  have hword : (wordTrap x v).toNat = (15 <<< 4 + x.toNat) <<< 8 + v.toNat := by
    rw [wordTrap, BitVec.toNat_append, BitVec.toNat_append, ← Nat.shiftLeft_add_eq_or_of_lt hv,
      ← Nat.shiftLeft_add_eq_or_of_lt hx]
    rfl
  rw [hword, BitVec.toNat_ofNat]
  omega

/-- Settles O55: an unknown vector is a trap that writes nothing out, and the policy is its run state. -/
theorem unknownVectorFollowsThePolicy : Obligations.UnknownVectorFollowsThePolicy := by
  refine ⟨⟨rfl, rfl, rfl⟩, rfl, fun x v s hv => ?_⟩
  obtain ⟨t, ht, hlink, hrun, hout, hregs, hcond, hpc, hmem, hin, hhost⟩ :=
    exec_of_trap (exec_trap_of_undefined ((definedVector_eq_false_iff v).2 hv) x s)
  refine ⟨t, ht, hlink, hregs, hcond, hpc, hmem, hout, hin, hhost, fun hfault => ?_, fun hnop => ?_⟩
  · rw [hrun, if_pos hfault, ← wordTrap_eq_ofNat]
    rfl
  · rw [hrun, if_neg (by simp [hnop])]

/-! ## HALT (R152, R196, R208) -/

/-- No well-formed instruction but HALT leads to HALTED. -/
theorem exec_not_halted {i : Instr} {s : State} (hwf : i.wellFormed = true) (hi : ∀ x, i ≠ .halt x)
    (hs : s.runState ≠ .halted) : ∃ t, exec i s = .next t ∧ t.runState ≠ .halted := by
  cases i with
  | halt x => exact absurd rfl (hi x)
  | addReg | addImm | andReg | andImm | notReg | lea | ret | jmp | jsr | st | str | out => exact ⟨_, rfl, hs⟩
  | br nzp off => exact ⟨_, exec_br nzp off s, hs⟩
  | jsrr x b y => exact ⟨_, exec_jsrr x b y s, hs⟩
  | ld | ldr | sti => exact ⟨_, rfl, (s.afterRead_runState _).trans_ne hs⟩
  | ldi => exact ⟨_, rfl, by simpa [loadFrom_eq] using hs⟩
  | getc | puts | inEcho | putsp | rti | res => exact ⟨_, rfl, nofun⟩
  | trap x v =>
    refine ⟨_, exec_trap_of_undefined (by simpa [Instr.wellFormed] using hwf) x s, ?_⟩
    rw [State.setRunState_runState]
    split_ifs
    · nofun
    · exact hs

/-- A step that leads to HALTED is HALT's: an abort leads to ABORTED, a wait to RUNNING, a string step to RUNNING or
STRING_OUT. -/
theorem step_to_halted {s t : State} (h : step s = .next t) (ht : t.runState = .halted) :
    s.runState = .running ∧ ∃ x, decode (s.tick.memRead s.pc).1 = .halt x := by
  rcases step_cases h with ⟨hterm, -, rfl⟩ | ⟨hrun, -, hexec⟩ | ⟨k, -, -, hwait⟩ | ⟨k, a, -, -, rfl⟩
  · simp [hostAbort, hterm] at ht
  · refine ⟨hrun, ?_⟩
    by_contra hne
    obtain ⟨hwf, -⟩ := encodeOfDecodeIsIdentity (fetch s.tick).1
    obtain ⟨u, hu, hnot⟩ := exec_not_halted (s := (fetch s.tick).2) hwf (not_exists.1 hne)
      (by simp [fetch_snd, hrun])
    cases hu.symm.trans hexec
    exact hnot ht
  · obtain ⟨c, u, -, rfl⟩ := waitStep_cases hwait
    cases ht
  · rcases stringStep_cases k a s.tick with ⟨-, hend⟩ | ⟨-, hword⟩
    · rw [hend] at ht
      cases ht
    · rw [hword] at ht
      cases ht

/-- Settles O54: `step_to_halted`, and HALT's issue is a trap whose run state is a normal end with no step. -/
theorem haltWritesTheNoticeAndEnds : Obligations.HaltWritesTheNoticeAndEnds := by
  refine ⟨fun _ _ => step_to_halted, fun x s => ?_⟩
  obtain ⟨t, ht, hlink, hrun, hout, hkept⟩ := exec_of_trap (i := .halt x) (s := s) rfl
  refine ⟨t, ht, hout, hrun, ?_, ?_, hlink, hkept⟩
  · rw [State.endedNormally, hrun]
    rfl
  · rw [step, hrun]

end Sys2Proof.Machine

/-! ## Fatal faults: RES, RTI and the unknown vector (R170 to R172, R182) -/

namespace Sys2Proof.Machine

/-- The routine of a defined vector raises no fault (R172). -/
theorem isFaulted_trapDispatch_of_defined {v : BitVec 8} (h : definedVector v = true) (ir : Word) {s : State}
    (hs : s.runState.isFaulted = false) : (trapDispatch v ir s).runState.isFaulted = false := by
  rcases (definedVector_iff v).1 h with rfl | rfl | rfl | rfl | rfl | rfl
  case inr.inl => exact hs
  all_goals rfl

/-- A TRAP faults exactly where its vector is undefined and the policy is `fault` (R153, R172). -/
theorem exec_trap_isFaulted (x : BitVec 4) (v : BitVec 8) {s : State} (hs : s.runState.isFaulted = false) :
    ∃ t, exec (.trap x v) s = .next t ∧
      t.runState.isFaulted = (Instr.trap x v).faults s.params.unknownTrapPolicy := by
  cases hv : definedVector v with
  | true =>
    have hissue := isFaulted_trapDispatch_of_defined hv (encode (.trap x v)) (s := s.link) hs
    exact ⟨_, rfl, by simpa [Instr.faults, hv] using hissue⟩
  | false =>
    refine ⟨_, exec_trap_of_undefined hv x s, ?_⟩
    cases hp : s.params.unknownTrapPolicy with
    | fault => simp [Instr.faults, hv, RunState.isFaulted]
    | nop => exact hs

/-- Every instruction, run from a state that is not FAULTED, leads to FAULTED exactly if it faults. -/
theorem exec_isFaulted (i : Instr) {s : State} (hs : s.runState.isFaulted = false) :
    ∃ t, exec i s = .next t ∧ t.runState.isFaulted = i.faults s.params.unknownTrapPolicy := by
  cases i with
  | addReg | addImm | andReg | andImm | notReg | lea | ret | jmp | jsr | st | str | out => exact ⟨_, rfl, hs⟩
  | br nzp off => exact ⟨_, exec_br nzp off s, hs⟩
  | jsrr x b y => exact ⟨_, exec_jsrr x b y s, hs⟩
  | ld | ldr | sti => exact ⟨_, rfl, (congrArg RunState.isFaulted (s.afterRead_runState _)).trans hs⟩
  | ldi => exact ⟨_, rfl, by simpa [loadFrom_eq, Instr.faults] using hs⟩
  | getc | puts | inEcho | putsp | halt | rti | res => exact ⟨_, rfl, rfl⟩
  | trap x v => exact exec_trap_isFaulted x v hs

/-- Settles O22: every instruction answers a next state, and `exec_isFaulted` says where it is FAULTED. -/
theorem onlyReservedOpcodesAndUnknownTrapsFault : Obligations.OnlyReservedOpcodesAndUnknownTrapsFault := by
  intro i s
  obtain ⟨t, ht, -⟩ := exec_evolves i s
  refine ⟨t, ht, fun hs => ?_⟩
  obtain ⟨u, hu, hfaulted⟩ := exec_isFaulted i hs
  cases hu.symm.trans ht
  exact hfaulted

theorem word12_eq_ofNat (op : Opcode) (low : BitVec 12) :
    word12 op low = BitVec.ofNat 16 (op.bits.toNat * 4096 + low.toNat) := by
  have hop := op.bits.isLt
  have hlow := low.isLt
  apply BitVec.eq_of_toNat_eq
  rw [word12, BitVec.toNat_append, ← Nat.shiftLeft_add_eq_or_of_lt hlow, Nat.shiftLeft_eq, BitVec.toNat_ofNat]
  omega

/-- An instruction that only raises a fatal fault (R182): the record holds its word, and the rest is kept. -/
theorem exec_of_raiseFault {i : Instr} {s : State} {code : FaultCode} {ir : Word}
    (h : exec i s = .next (raiseFault code (encode i) s)) (hword : encode i = ir) :
    ∃ t, exec i s = .next t ∧ t.runState = .faulted code ir (s.pc - 1) ∧ KeepsRegs s t [] ∧ t.cond = s.cond ∧
      t.pc = s.pc ∧ KeepsMem s t [] ∧ t.output = s.output ∧ KeepsInput s t ∧ KeepsHost s t := by
  subst hword
  exact ⟨_, h, rfl, keepsRegs_of_regs_eq rfl [], rfl, rfl, keepsMem_of_mem_eq rfl [], rfl, ⟨rfl, rfl⟩, rfl, rfl⟩

/-- Settles O56: RES's row tests the opcode only, and RES only raises its fault. -/
theorem reservedOpcodeIsAFatalFault : Obligations.ReservedOpcodeIsAFatalFault :=
  ⟨fun _ h => decode_of_mask_F000 (op := .res) h, fun x _ => exec_of_raiseFault rfl (word12_eq_ofNat .res x)⟩

/-- Settles O57: RTI's row tests the opcode only, and RTI only raises its fault. -/
theorem rtiIsAFatalFault : Obligations.RtiIsAFatalFault :=
  ⟨fun _ h => decode_of_mask_F000 (op := .rti) h, fun x _ => exec_of_raiseFault rfl (word12_eq_ofNat .rti x)⟩

end Sys2Proof.Machine

/-! ## The host's abort (R184, R186, D18) -/

namespace Sys2Proof.Machine

theorem hostAbort_of_live {s : State} (h : s.runState.terminal = false) : hostAbort s = s.setRunState .aborted := by
  simp [hostAbort, h]

theorem hostAbort_of_terminal {s : State} (h : s.runState.terminal = true) : hostAbort s = s := if_pos h

/-- A due abort takes the place of the step in every state that has not ended (R186). -/
theorem step_of_abortDue {s : State} (hlive : s.runState.terminal = false) (hdue : s.abortDue = true) :
    step s = .next (hostAbort s) := by
  cases hr : s.runState with
  | running => simp [step, hr, hdue]
  | waitInput k => exact step_of_waitInput_abort hr hdue
  | stringOut k a => simp [step, hr, hdue]
  | halted | faulted code word addr | aborted =>
    rw [hr] at hlive
    cases hlive

/-- A terminal state has no step (R152, R182, R186), and it does not wait for the device. -/
theorem step_of_terminal {s : State} (h : s.runState.terminal = true) :
    ∃ r, step s = .fault r ∧ r ≠ .waitingForInput := by
  cases hr : s.runState with
  | halted => exact ⟨.halted, by rw [step, hr], nofun⟩
  | faulted code word addr => exact ⟨.faulted code, by rw [step, hr], nofun⟩
  | aborted => exact ⟨.aborted, by rw [step, hr], nofun⟩
  | running | waitInput k | stringOut k a =>
    rw [hr] at h
    cases h

/-- Settles O13: `hostAbort`'s two cases, `step_of_abortDue`, and a terminal state ends the run whatever the host's
schedule is, since the schedule is no part of its run state. -/
theorem abortFallsBetweenSteps : Obligations.AbortFallsBetweenSteps :=
  fun s => ⟨hostAbort_of_live, hostAbort_of_terminal, step_of_abortDue,
    fun hterm n => step_of_terminal (s := { s with abortIn := n }) hterm⟩

end Sys2Proof.Machine

/-! ## The end of a run and the progress of each run state (R196, R208, R211) -/

namespace Sys2Proof.Machine

theorem RunState.terminal_iff (r : RunState) :
    r.terminal = true ↔ r = .halted ∨ r = .aborted ∨ ∃ c w a, r = .faulted c w a := by
  cases r <;> simp [RunState.terminal]

theorem exists_step_of_running {s : State} (hr : s.runState = .running) (hdue : s.abortDue = false) :
    ∃ t, step s = .next t := by
  obtain ⟨t, ht, -⟩ := exec_evolves (decode (fetch s.tick).1) (fetch s.tick).2
  exact ⟨t, (step_of_running hr hdue).trans ht⟩

/-- A state that has not ended steps, or it waits for the device (R144, R211). -/
theorem step_of_live {s : State} (hlive : s.runState.terminal = false) :
    (∃ t, step s = .next t) ∨ step s = .fault .waitingForInput := by
  cases hdue : s.abortDue with
  | true => exact .inl ⟨_, step_of_abortDue hlive hdue⟩
  | false =>
    cases hr : s.runState with
    | running => exact .inl (exists_step_of_running hr hdue)
    | waitInput k =>
      rw [step_of_waitInput hr hdue, waitStep]
      cases s.tick.awaitDevice with
      | none => exact .inr rfl
      | some p => exact .inl ⟨_, rfl⟩
    | stringOut k a => exact .inl ⟨_, step_of_stringOut hr hdue⟩
    | halted | faulted code word addr | aborted =>
      rw [hr] at hlive
      cases hlive

theorem step_goes_on_iff {s : State} (hlive : s.runState.terminal = false) :
    (∃ t, step s = .next t) ↔ step s ≠ .fault .waitingForInput := by
  rcases step_of_live hlive with ⟨t, ht⟩ | hwait
  · simp [ht]
  · simp [hwait]

/-- A run stops for good exactly in a terminal state (R208). -/
theorem step_ends_iff (s : State) :
    (∃ r, r ≠ Fault.waitingForInput ∧ step s = .fault r) ↔ s.runState.terminal = true := by
  constructor
  · rintro ⟨r, hr, hstep⟩
    by_contra hlive
    rcases step_of_live (Bool.eq_false_iff.2 hlive) with ⟨t, ht⟩ | hwait
    · cases hstep.symm.trans ht
    · cases hstep.symm.trans hwait
      exact hr rfl
  · intro hterm
    obtain ⟨r, hstep, hr⟩ := step_of_terminal hterm
    exact ⟨r, hr, hstep⟩

theorem step_ne_refused (s : State) (r : Refusal) : step s ≠ .refused r := by
  intro h
  cases hterm : s.runState.terminal with
  | true =>
    obtain ⟨f, hf, -⟩ := step_of_terminal hterm
    cases h.symm.trans hf
  | false =>
    rcases step_of_live hterm with ⟨t, ht⟩ | hwait
    · cases h.symm.trans ht
    · cases h.symm.trans hwait

theorem RunState.exitOutcome_normal_iff (r : RunState) : r.exitOutcome = some .normal ↔ r = .halted := by
  cases r <;> simp [RunState.exitOutcome]

theorem RunState.exitOutcome_abnormal_iff (r : RunState) :
    r.exitOutcome = some .abnormal ↔ ∃ c w a, r = .faulted c w a := by
  cases r <;> simp [RunState.exitOutcome]

theorem RunState.exitOutcome_hostSignal_iff (r : RunState) : r.exitOutcome = some .hostSignal ↔ r = .aborted := by
  cases r <;> simp [RunState.exitOutcome]

theorem RunState.exitStatus_eq_some_iff (r : RunState) (n : Int) :
    r.exitStatus = some n ↔ ∃ o, r.exitOutcome = some o ∧ n = Config.exitStatus o := by
  rw [RunState.exitStatus, Option.map_eq_some_iff]
  exact exists_congr fun o => and_congr_right fun _ => eq_comm

/-- Settles O12: `step_ends_iff` with the terminal states listed, and one case of `exitOutcome` for each of them. -/
theorem onlyTerminalStatesHaveNoStep : Obligations.OnlyTerminalStatesHaveNoStep :=
  fun s => ⟨(step_ends_iff s).trans s.runState.terminal_iff, step_ne_refused s, s.runState.exitOutcome_normal_iff,
    s.runState.exitOutcome_abnormal_iff, s.runState.exitOutcome_hostSignal_iff, s.runState.exitStatus_eq_some_iff⟩

/-- Settles O14: only WAIT_INPUT can wait, and it waits exactly while the device has no character to give. -/
theorem progressOfEachRunState : Obligations.ProgressOfEachRunState := by
  refine fun s hdue => ⟨fun hr => exists_step_of_running hr hdue,
    fun k a hr => ⟨_, step_of_stringOut hr hdue⟩, fun k hr => ?_⟩
  have hlive : s.runState.terminal = false := by rw [hr]; rfl
  rw [step_goes_on_iff hlive, ne_eq, step_of_waitInput_fault_iff hr hdue, not_and_or, not_forall,
    Option.isSome_iff_ne_none]
  simp only [not_not, ne_eq]

end Sys2Proof.Machine

/-! ## Images (R201 to R206) -/

namespace Sys2Proof.Machine

/-- The two bytes of a Word in an image, the first in bits 15:8 (R201). -/
def imageBytes (w : Word) : List Byte :=
  [(w >>> 8).setWidth 8, w.setWidth 8]

theorem imageBytes_append (w : Word) : ((w >>> 8).setWidth 8 : Byte) ++ (w.setWidth 8 : Byte) = w := by
  refine BitVec.eq_of_getLsbD_eq fun i hi => ?_
  rw [BitVec.getLsbD_append]
  split
  next hlow => simp [hlow]
  next hhigh =>
    have hi8 : i - 8 < 8 := by omega
    have hback : 8 + (i - 8) = i := by omega
    simp [hi8, hback]

/-- A payload's words are read back, and a last odd byte is dropped (R201, R205). -/
theorem payloadWords_imageBytes {rest : List Byte} (hrest : rest.length < 2) (ws : List Word) :
    payloadWords ((ws.map imageBytes).flatten ++ rest) = ws := by
  induction ws with
  | nil =>
    match rest, hrest with
    | [], _ => rfl
    | [_], _ => rfl
  | cons w ws ih => exact congrArg₂ List.cons (imageBytes_append w) ih

/-- What the words placed from an address upward leave at each address, up to 0xFFFF and without wrapping (R202). -/
theorem loadWords_read (ws : List Word) (o : Nat) (m : Memory) (a : Word) :
    (loadWords o ws m).read a =
      if h : o ≤ a.toNat ∧ a.toNat - o < ws.length then ws[a.toNat - o] else m.read a := by
  induction ws generalizing o m with
  | nil => simp [loadWords]
  | cons w ws ih =>
    have ha := a.isLt
    by_cases ho : o < 65536
    · rw [loadWords, if_pos ho, ih, Memory.read_write]
      have hself : a = BitVec.ofNat 16 o ↔ a.toNat = o := by
        rw [← BitVec.toNat_inj, BitVec.toNat_ofNat, Nat.mod_eq_of_lt ho]
      rcases Nat.lt_trichotomy a.toNat o with hlt | heq | hgt
      · rw [dif_neg (by omega), dif_neg (by omega), if_neg (by rw [hself]; omega)]
      · rw [dif_neg (by omega), if_pos (hself.2 heq), dif_pos (by simp; omega)]
        simp [heq]
      · have hnext : a.toNat - o = a.toNat - (o + 1) + 1 := by omega
        by_cases hin : a.toNat - (o + 1) < ws.length
        · rw [dif_pos ⟨hgt, hin⟩, dif_pos ⟨hgt.le, by simp; omega⟩]
          simp [hnext]
        · rw [dif_neg (by omega), if_neg (by rw [hself]; omega), dif_neg (by simp; omega)]
    · rw [loadWords, if_neg ho, dif_neg (by omega)]

theorem loadWords_wf {m : Memory} (hm : m.wf = true) (o : Nat) (ws : List Word) : (loadWords o ws m).wf = true := by
  induction ws generalizing o m with
  | nil => exact hm
  | cons w ws ih =>
    unfold loadWords
    split
    · exact ih (Memory.wf_write hm _ _) _
    · exact hm

theorem loadImage_cons_cons (hi lo : Byte) (payload : List Byte) (m : Memory) :
    loadImage (hi :: lo :: payload) m = some (loadWords (hi ++ lo : Word).toNat (payloadWords payload) m) := rfl

/-- An image of an origin and payload words loads the words from the origin upward, whether or not an odd byte
follows them (R202, R205). -/
theorem loadImage_imageBytes {rest : List Byte} (hrest : rest.length < 2) (hi lo : Byte) (ws : List Word) (m : Memory) :
    loadImage (hi :: lo :: ((ws.map imageBytes).flatten ++ rest)) m =
      some (loadWords (hi ++ lo : Word).toNat ws m) := by
  rw [loadImage_cons_cons, payloadWords_imageBytes hrest]

/-- A stream fails to load exactly when it has no whole origin (R205). -/
theorem loadImage_eq_none_iff (bytes : List Byte) (m : Memory) : loadImage bytes m = none ↔ bytes.length < 2 := by
  match bytes with
  | [] => simp [loadImage]
  | [_] => simp [loadImage]
  | hi :: lo :: payload => simp [loadImage_cons_cons]

theorem loadImage_wf {bytes : List Byte} {m n : Memory} (hm : m.wf = true) (h : loadImage bytes m = some n) :
    n.wf = true := by
  match bytes with
  | [] | [_] => cases h
  | hi :: lo :: payload =>
    cases h
    exact loadWords_wf hm _ _

theorem loadImages_cons_some (bytes : List Byte) (streams : List (Option (List Byte))) (m : Memory) :
    loadImages (some bytes :: streams) m = (loadImage bytes m).bind (loadImages streams) := by
  rw [loadImages]
  cases loadImage bytes m <;> rfl

/-- Streams load one after the other, each into the memory the ones before it left (R203). -/
theorem loadImages_append (first later : List (Option (List Byte))) (m : Memory) :
    loadImages (first ++ later) m = (loadImages first m).bind (loadImages later) := by
  induction first generalizing m with
  | nil => rfl
  | cons st first ih =>
    cases st with
    | none => rfl
    | some bytes =>
      rw [List.cons_append, loadImages_cons_some, loadImages_cons_some, Option.bind_assoc]
      exact congrArg _ (funext ih)

/-- The streams fail to load exactly when one of them cannot be opened or has no whole origin (R204, R205). -/
theorem loadImages_eq_none_iff (streams : List (Option (List Byte))) (m : Memory) :
    loadImages streams m = none ↔ ∃ st ∈ streams, ∀ bytes, st = some bytes → bytes.length < 2 := by
  induction streams generalizing m with
  | nil => simp [loadImages]
  | cons st streams ih =>
    rw [List.exists_mem_cons_iff]
    cases st with
    | none => simp [loadImages]
    | some bytes =>
      rw [loadImages_cons_some]
      cases h : loadImage bytes m with
      | none =>
        refine iff_of_true rfl (.inl fun _ hbytes => ?_)
        cases hbytes
        exact (loadImage_eq_none_iff bytes m).1 h
      | some n =>
        have hlen : ¬ bytes.length < 2 := by simp [← loadImage_eq_none_iff bytes m, h]
        exact (ih n).trans (or_iff_right fun hshort => hlen (hshort bytes rfl)).symm

theorem loadImages_wf {streams : List (Option (List Byte))} {m n : Memory} (hm : m.wf = true)
    (h : loadImages streams m = some n) : n.wf = true := by
  induction streams generalizing m with
  | nil => cases h; exact hm
  | cons st streams ih =>
    cases st with
    | none => cases h
    | some bytes =>
      rw [loadImages_cons_some] at h
      obtain ⟨k, hk, hrest⟩ := Option.bind_eq_some_iff.1 h
      exact ih (loadImage_wf hm hk) hrest

/-- Settles O58: `loadImages_append` with one stream left, and `loadWords_read` on the words of the payload. -/
theorem imagesLoadFromTheirOriginsUpward : Obligations.ImagesLoadFromTheirOriginsUpward := by
  refine ⟨fun first last m => ?_, fun origin ws m => ⟨loadWords origin.toNat ws m, ?_, loadWords_read ws _ m⟩⟩
  · rw [loadImages_append]
    refine congrArg _ (funext fun n => ?_)
    exact (loadImages_cons_some last [] n).trans (Option.bind_fun_some _)
  · have h := loadImage_imageBytes (rest := []) Nat.zero_lt_two ((origin >>> 8).setWidth 8) (origin.setWidth 8) ws m
    rwa [List.append_nil, imageBytes_append] at h

/-- Settles O59: with the odd byte and without it the payload has the same words. -/
theorem malformedStreamsAsDecided : Obligations.MalformedStreamsAsDecided := by
  refine ⟨fun hi lo b ws m => ?_, fun b m => ⟨rfl, rfl⟩⟩
  have hodd := loadImage_imageBytes (rest := [b]) Nat.one_lt_two hi lo ws m
  have heven := loadImage_imageBytes (rest := []) Nat.zero_lt_two hi lo ws m
  rw [List.append_nil] at heven
  exact hodd.trans heven.symm

/-! ## The start of a run (R200, R204, R206) -/

theorem boot_eq_none_iff (streams : List (Option (List Byte))) :
    boot streams = none ↔ streams = [] ∨ loadImages streams State.reset.mem = none := by
  cases streams with
  | nil => simp [boot]
  | cons st rest => simp [boot]

/-- Settles O60: a boot fails with its images, and one that starts is reset with a canonical memory. -/
theorem runStartsOnlyIfEveryImageLoads : Obligations.RunStartsOnlyIfEveryImageLoads := by
  refine ⟨fun streams => ?_, fun streams h => ?_, fun streams t h => ?_⟩
  · rw [boot_eq_none_iff, loadImages_eq_none_iff]
  · have hout : bootOutcome streams = some .abnormal := by rw [bootOutcome, h]
    exact ⟨hout, by rw [bootStatus, hout]; rfl⟩
  · obtain ⟨m, hm, rfl⟩ := boot_eq_some h
    obtain ⟨hwf, hcond, hkeyboard⟩ := resetMeetsTheInvariant
    exact ⟨rfl, rfl, rfl, loadImages_wf hwf hm, hcond, hkeyboard⟩

end Sys2Proof.Machine
